-- ==== Sys2Proof/Word.lean ====
section
/-!
DEFINITION. The value types of DDC: command words, channels, bytes and frames.
Bit 0 of every value is its least significant bit (00_scope.md R9).
-/

namespace Sys2Proof

/-- A byte, bits 7 to 0 (R9). -/
abbrev Byte := BitVec 8

/-- A channel value: an unsigned integer of width 11 (R10), so always in [0, 2047] (R21). -/
abbrev Chan := BitVec 11

/-- A command word of the command port (R70). -/
abbrev CmdWord := BitVec 64

/-- The 32-bit command argument `ARG` (R10, R70). -/
abbrev Arg := BitVec 32

/-- The sixteen channels of a ChannelState, index 0 to 15 (R21): exactly 16 by type. -/
abbrev Channels := Vector Chan 16

/-- A frame: an exact 25-byte sequence, a value with no identity beyond its bytes (R52, R109). -/
abbrev Frame := Vector Byte 25

/-- A ChannelState value `S = (CH[0..15], A)`: sixteen channels and the arm flag (R24). -/
structure ChannelState where
  /-- `CH[0..15]` -/
  ch : Channels
  /-- `A`, the arm flag -/
  arm : Bool
  deriving DecidableEq, Repr

end Sys2Proof
end

