-- ==== Sys2Proof/Config.lean ====
section
/-!
DEFINITION. The parameters of DDC (00_scope.md R7, R8, R16): constants, never state.
-/

namespace Sys2Proof

/-- `HEADER`, the constant of frame byte 0 (R7). -/
def Config.header : Byte := 0x0F#8

/-- `FOOTER`, the constant of frame byte 24 (R7). -/
def Config.footer : Byte := 0x00#8

/-- `CLAMP_LO`, the lower bound of the clamp and of a legal channel value (R7). -/
def Config.clampLo : Int := 0

/-- `CLAMP_HI`, the upper bound of the clamp and of a legal channel value (R7). -/
def Config.clampHi : Int := 2047

/-- `ARM_FLAG_BIT` ∈ {0, 1}, the bit of the flags byte that carries the arm flag; this spec's
value is 0 (R8, R104, D10). DESIGN CHOICE, unsafe: log 6. The frame functions take the bit as
an argument, so a claim about frames can quantify over both values. -/
def Config.armFlagBit : Fin 2 := 0

/-- `RESET_CH[0..15]`, the reset value of each channel; this spec's value is 992 (R8, R38, R261,
D28). DESIGN CHOICE, unsafe: log 7. The reset state is a function of it. -/
def Config.resetCh : Channels := Vector.replicate 16 992#11

/-- `AUX_NAME_MAP`: the parser-side map from aux field names to channel indices 4 to 15 (R8, R162).
OPEN in the spec (D17), so it has no body here: `some k` stands for channel `4 + k`, `none` for a
name the parser does not know (log 8). -/
opaque Config.auxNameMap : List Char → Option (Fin 12)

/-- `TICK_PERIOD` in milliseconds, default 20 (R8). No rule of DDC reads it (R191): log 9. -/
def Config.tickPeriodMs : Nat := 20

/-- The lower and upper bound of `OP_RANGE`, a recommendation that DDC enforces nowhere (R7, R166). -/
def Config.opRange : Nat × Nat := (172, 1800)

end Sys2Proof
end

