-- ==== Sys2Proof/Syntax.lean ====
section
/-!
DEFINITION. The command set DDC-CMD v1: one constructor per row of the opcode map (30_encoding.md R75).
A constructor holds the operand fields its form names (R74): `idx` is `IDX`, `arg` is `ARG`.
-/

namespace Sys2Proof

/-- The 22 commands. Form `N` has no operand, form `I` an index, form `IA` an index or field code and a
signed argument, forms `AB` and `AF` the argument word that carries a byte or a flag (R72, R74). -/
inductive Instr where
  /-- `NOP` (R221), form N -/
  | nop
  /-- `CH_GET i` (R141), form I -/
  | chGet (idx : Byte)
  /-- `CH_SET i, v` (R143), form IA -/
  | chSet (idx : Byte) (arg : Arg)
  /-- `ARM_GET` (R145), form N -/
  | armGet
  /-- `SNAPSHOT` (R147), form N -/
  | snapshot
  /-- `SNAP_GET i` (R149), form I -/
  | snapGet (idx : Byte)
  /-- `SNAP_ARM_GET` (R151), form N -/
  | snapArmGet
  /-- `ENCODE` (R110), form N -/
  | encode
  /-- `FOUT_GET j` (R112), form I -/
  | foutGet (idx : Byte)
  /-- `DIN_CLEAR` (R120), form N -/
  | dinClear
  /-- `DIN_PUSH b` (R122), form AB: the byte is `arg[7:0]`, `arg[31:8]` must be 0 -/
  | dinPush (arg : Arg)
  /-- `DECODE` (R126), form N -/
  | decode
  /-- `DEC_GET i` (R130), form I -/
  | decGet (idx : Byte)
  /-- `DEC_FLAGS_GET` (R132), form N -/
  | decFlagsGet
  /-- `MSG_BEGIN` (R168), form N -/
  | msgBegin
  /-- `MSG_FIELD f, v` (R169), form IA -/
  | msgField (idx : Byte) (arg : Arg)
  /-- `MSG_COMMIT` (R170), form N -/
  | msgCommit
  /-- `MSG_ABORT` (R171), form N -/
  | msgAbort
  /-- `TX_ENABLE e` (R200), form AF: the flag is `arg[0]`, `arg[31:1]` must be 0 -/
  | txEnable (arg : Arg)
  /-- `TXF_GET j` (R202), form I -/
  | txfGet (idx : Byte)
  /-- `STATUS_GET` (R223), form N -/
  | statusGet
  /-- `FAULT_GET` (R225), form N -/
  | faultGet
  deriving DecidableEq, Repr

end Sys2Proof
end

