-- ==== Sys2Proof/WellFormed.lean ====
section
/-!
DEFINITION. Which instructions a command word can stand for: the fixed-zero bits of forms AB and AF
(30_encoding.md R72, R74). Every index and every field code is well-formed: an index outside its legal
range is no encoding error (R71).
-/

namespace Sys2Proof

/-- Form AB: `ARG[31:8]` must be 0 (R72). -/
def byteArgOk (arg : Arg) : Bool := arg.extractLsb' 8 24 == 0#24

/-- Form AF: `ARG[31:1]` must be 0 (R72). -/
def flagArgOk (arg : Arg) : Bool := arg.extractLsb' 1 31 == 0#31

/-- An instruction is well-formed when its operands meet its form's fixed-zero bits (R74). -/
def Instr.wellFormed : Instr → Bool
  | .nop => true
  | .chGet _ => true
  | .chSet _ _ => true
  | .armGet => true
  | .snapshot => true
  | .snapGet _ => true
  | .snapArmGet => true
  | .encode => true
  | .foutGet _ => true
  | .dinClear => true
  | .dinPush arg => byteArgOk arg
  | .decode => true
  | .decGet _ => true
  | .decFlagsGet => true
  | .msgBegin => true
  | .msgField _ _ => true
  | .msgCommit => true
  | .msgAbort => true
  | .txEnable arg => flagArgOk arg
  | .txfGet _ => true
  | .statusGet => true
  | .faultGet => true

end Sys2Proof
end

