-- ==== Sys2Proof/Decode.lean ====
section
/-!
DEFINITION. The command word, its decoder and its encoder (30_encoding.md R70 to R78).
-/

namespace Sys2Proof

/-- The operand forms of R74. -/
inductive Form where
  | N | I | IA | AB | AF
  deriving DecidableEq, Repr

/-- The mnemonics of R75, one per row of the opcode map. -/
inductive Mnemonic where
  | nop | chGet | chSet | armGet | snapshot | snapGet | snapArmGet
  | encode | foutGet | dinClear | dinPush | decode | decGet | decFlagsGet
  | msgBegin | msgField | msgCommit | msgAbort
  | txEnable | txfGet
  | statusGet | faultGet
  deriving DecidableEq, Repr

/-- One row of the opcode map (R75). -/
structure OpcodeRow where
  /-- `OP`, bits 31:24 of the word -/
  op : Byte
  mnemonic : Mnemonic
  form : Form
  deriving DecidableEq, Repr

/-! ## The fields of a command word (R70) -/

/-- `ARG = w[63:32]`. -/
def argField (w : CmdWord) : Arg := w.extractLsb' 32 32

/-- `OP = w[31:24]`. -/
def opField (w : CmdWord) : Byte := w.extractLsb' 24 8

/-- `IDX = w[23:16]`. -/
def idxField (w : CmdWord) : Byte := w.extractLsb' 16 8

/-- `RSV = w[15:0]`. -/
def rsvField (w : CmdWord) : BitVec 16 := w.extractLsb' 0 16

/-- A word from its four fields, `ARG` in the high bits (R70). -/
def wordOf (arg : Arg) (op idx : Byte) (rsv : BitVec 16) : CmdWord := arg ++ op ++ idx ++ rsv

/-! ## The tables of R74 and R75 -/

/-- The mask of fixed bits of a form, the `OP` bits among them (R74). -/
def Form.mask : Form → CmdWord
  | .N => 0xFFFFFFFF#32 ++ 0xFFFFFFFF#32
  | .I => 0xFFFFFFFF#32 ++ 0xFF00FFFF#32
  | .IA => 0x00000000#32 ++ 0xFF00FFFF#32
  | .AB => 0xFFFFFF00#32 ++ 0xFFFFFFFF#32
  | .AF => 0xFFFFFFFE#32 ++ 0xFFFFFFFF#32

/-- The row of each mnemonic (R75). -/
def Mnemonic.row : Mnemonic → OpcodeRow
  | .nop => ⟨0x00#8, .nop, .N⟩
  | .chGet => ⟨0x01#8, .chGet, .I⟩
  | .chSet => ⟨0x02#8, .chSet, .IA⟩
  | .armGet => ⟨0x03#8, .armGet, .N⟩
  | .snapshot => ⟨0x04#8, .snapshot, .N⟩
  | .snapGet => ⟨0x05#8, .snapGet, .I⟩
  | .snapArmGet => ⟨0x06#8, .snapArmGet, .N⟩
  | .encode => ⟨0x08#8, .encode, .N⟩
  | .foutGet => ⟨0x09#8, .foutGet, .I⟩
  | .dinClear => ⟨0x0A#8, .dinClear, .N⟩
  | .dinPush => ⟨0x0B#8, .dinPush, .AB⟩
  | .decode => ⟨0x0C#8, .decode, .N⟩
  | .decGet => ⟨0x0D#8, .decGet, .I⟩
  | .decFlagsGet => ⟨0x0E#8, .decFlagsGet, .N⟩
  | .msgBegin => ⟨0x10#8, .msgBegin, .N⟩
  | .msgField => ⟨0x11#8, .msgField, .IA⟩
  | .msgCommit => ⟨0x12#8, .msgCommit, .N⟩
  | .msgAbort => ⟨0x13#8, .msgAbort, .N⟩
  | .txEnable => ⟨0x18#8, .txEnable, .AF⟩
  | .txfGet => ⟨0x19#8, .txfGet, .I⟩
  | .statusGet => ⟨0x1E#8, .statusGet, .N⟩
  | .faultGet => ⟨0x1F#8, .faultGet, .N⟩

/-- The opcode map (R75). -/
def opcodeTable : List OpcodeRow :=
  [ Mnemonic.nop.row, Mnemonic.chGet.row, Mnemonic.chSet.row, Mnemonic.armGet.row,
    Mnemonic.snapshot.row, Mnemonic.snapGet.row, Mnemonic.snapArmGet.row,
    Mnemonic.encode.row, Mnemonic.foutGet.row, Mnemonic.dinClear.row, Mnemonic.dinPush.row,
    Mnemonic.decode.row, Mnemonic.decGet.row, Mnemonic.decFlagsGet.row,
    Mnemonic.msgBegin.row, Mnemonic.msgField.row, Mnemonic.msgCommit.row, Mnemonic.msgAbort.row,
    Mnemonic.txEnable.row, Mnemonic.txfGet.row,
    Mnemonic.statusGet.row, Mnemonic.faultGet.row ]

/-- `match` of a row: the word with every operand field zero (R75). -/
def OpcodeRow.pattern (r : OpcodeRow) : CmdWord := wordOf 0#32 r.op 0#8 0#16

/-- A word selects a row when `(w & mask) = match` (R75). -/
def OpcodeRow.selects (r : OpcodeRow) (w : CmdWord) : Bool := w &&& r.form.mask == r.pattern

/-! ## Instructions and their fields -/

/-- `Cmd(mnemonic, idx, arg)` of R77; a field the form does not use is dropped. -/
def Mnemonic.command (idx : Byte) (arg : Arg) : Mnemonic → Instr
  | .nop => .nop
  | .chGet => .chGet idx
  | .chSet => .chSet idx arg
  | .armGet => .armGet
  | .snapshot => .snapshot
  | .snapGet => .snapGet idx
  | .snapArmGet => .snapArmGet
  | .encode => .encode
  | .foutGet => .foutGet idx
  | .dinClear => .dinClear
  | .dinPush => .dinPush arg
  | .decode => .decode
  | .decGet => .decGet idx
  | .decFlagsGet => .decFlagsGet
  | .msgBegin => .msgBegin
  | .msgField => .msgField idx arg
  | .msgCommit => .msgCommit
  | .msgAbort => .msgAbort
  | .txEnable => .txEnable arg
  | .txfGet => .txfGet idx
  | .statusGet => .statusGet
  | .faultGet => .faultGet

/-- The mnemonic of an instruction (R75). -/
def Instr.mnemonic : Instr → Mnemonic
  | .nop => .nop
  | .chGet _ => .chGet
  | .chSet _ _ => .chSet
  | .armGet => .armGet
  | .snapshot => .snapshot
  | .snapGet _ => .snapGet
  | .snapArmGet => .snapArmGet
  | .encode => .encode
  | .foutGet _ => .foutGet
  | .dinClear => .dinClear
  | .dinPush _ => .dinPush
  | .decode => .decode
  | .decGet _ => .decGet
  | .decFlagsGet => .decFlagsGet
  | .msgBegin => .msgBegin
  | .msgField _ _ => .msgField
  | .msgCommit => .msgCommit
  | .msgAbort => .msgAbort
  | .txEnable _ => .txEnable
  | .txfGet _ => .txfGet
  | .statusGet => .statusGet
  | .faultGet => .faultGet

/-- The `IDX` field of an instruction's word; 0 where its form has no index (R74). -/
def Instr.idx : Instr → Byte
  | .nop => 0#8
  | .chGet idx => idx
  | .chSet idx _ => idx
  | .armGet => 0#8
  | .snapshot => 0#8
  | .snapGet idx => idx
  | .snapArmGet => 0#8
  | .encode => 0#8
  | .foutGet idx => idx
  | .dinClear => 0#8
  | .dinPush _ => 0#8
  | .decode => 0#8
  | .decGet idx => idx
  | .decFlagsGet => 0#8
  | .msgBegin => 0#8
  | .msgField idx _ => idx
  | .msgCommit => 0#8
  | .msgAbort => 0#8
  | .txEnable _ => 0#8
  | .txfGet idx => idx
  | .statusGet => 0#8
  | .faultGet => 0#8

/-- The `ARG` field of an instruction's word; 0 where its form has no argument (R74). -/
def Instr.arg : Instr → Arg
  | .nop => 0#32
  | .chGet _ => 0#32
  | .chSet _ arg => arg
  | .armGet => 0#32
  | .snapshot => 0#32
  | .snapGet _ => 0#32
  | .snapArmGet => 0#32
  | .encode => 0#32
  | .foutGet _ => 0#32
  | .dinClear => 0#32
  | .dinPush arg => arg
  | .decode => 0#32
  | .decGet _ => 0#32
  | .decFlagsGet => 0#32
  | .msgBegin => 0#32
  | .msgField _ arg => arg
  | .msgCommit => 0#32
  | .msgAbort => 0#32
  | .txEnable arg => arg
  | .txfGet _ => 0#32
  | .statusGet => 0#32
  | .faultGet => 0#32

/-! ## Decoder and encoder -/

/-- `decode` of R77, total on every 64-bit word; `none` is `Illegal`. It reads no state. -/
def decode (w : CmdWord) : Option Instr :=
  match opcodeTable.find? (fun row => row.op == opField w) with
  | none => none
  | some row =>
    if row.selects w then some (row.mnemonic.command (idxField w) (argField w)) else none

/-- The word of an instruction: its operand fields, its `OP`, and `RSV` 0 (R70, R73, R75). -/
def encode (i : Instr) : CmdWord := wordOf i.arg i.mnemonic.row.op i.idx 0#16

/-! ## Command words on a byte-wide bus (R55)

The port moves whole words and no rule of DDC reads a byte order; an implementation that carries words
over a byte-wide bus sends the least significant byte first (log 15). -/

/-- The `n` bytes of a value, least significant first (R55). -/
def busBytes {width : Nat} (n : Nat) (v : BitVec width) : List Byte :=
  (List.range n).map fun j => v.extractLsb' (8 * j) 8

/-- The command word that eight bus bytes carry, least significant byte first (R55). -/
def wordOfBusBytes : List Byte → Option CmdWord
  | [b0, b1, b2, b3, b4, b5, b6, b7] => some (b7 ++ b6 ++ b5 ++ b4 ++ b3 ++ b2 ++ b1 ++ b0)
  | _ => none

/-- The instruction the decoder reads from an opcode-table word of `nbits` bits; every bit above `nbits`
is 0. A command is one 64-bit word (R70), so bits above 63 are no part of it (log 16). -/
def decodeTableWord (nbits w : Nat) : Option Instr := decode (BitVec.ofNat 64 (w % 2 ^ nbits))

end Sys2Proof
end

