-- ==== Sys2Proof/Machine/State.lean ====
section
/-!
DEFINITION. The state of DDC (10_state.md), its outputs (R39), the steps its agents take (R15), the outcomes of a
step, and the state after reset (R38).
-/

namespace Sys2Proof.Machine

/-- Reasons DDC stops with a fault: none. "No error stops DDC" (60_exceptions.md R237), there is no trap entry
(R240), and every command ends with one `respond` (R233). Nobody raises one; having none is safe or unsafe for no
claim, since a step that answers `fault` does not exist (log 12). -/
inductive Fault : Type
  deriving DecidableEq, Repr

/-- Reasons the model has no meaning for an instruction. -/
inductive Refusal where
  /-- An arm of `exec` that has no meaning yet would answer this, with the mnemonic of the opcode table. No arm does:
  every instruction has its meaning. Safe: a claim about a refused step is unprovable. -/
  | notModelled (mnemonic : String)
  deriving DecidableEq, Repr

/-- `TX_STATE` (R30, R190): 0 = Idle, 1 = Transmitting. -/
inductive TxState where
  | idle
  | transmitting
  deriving DecidableEq, Repr

/-- The transport's answer to a handoff (43_transmit_scheduler.md R196, R197). -/
inductive Answer where
  | ok
  | fail
  deriving DecidableEq, Repr

/-- A contract violation `E(info)`: the error of a `raise` and its `info` (60_exceptions.md R230, R238). -/
inductive Contract where
  /-- code 0x01; `info` is `IDX` -/
  | indexOutOfRange (idx : Byte)
  /-- code 0x02; `info` is `sval(ARG)` -/
  | invalidChannelValue (value : Int)
  /-- code 0x03; `info` is `DIN[0]` -/
  | badHeader (byte : Byte)
  /-- code 0x04; `info` is `DIN[24]` -/
  | badFooter (byte : Byte)
  /-- code 0x05; `info` is `DIN_LEN` -/
  | badLength (len : Byte)
  /-- code 0x06; `info` is the mnemonic -/
  | sequenceError (mnemonic : Mnemonic)
  /-- code 0x07; `info` is the whole word -/
  | illegalCommand (word : CmdWord)
  deriving DecidableEq, Repr

/-- An event of the event output (R238). The code of an `EV_CONTRACT` is that of its violation. -/
inductive Event where
  /-- `EV_CLAMP(field, raw, clamped)` -/
  | clamp (field : Byte) (raw : Int) (clamped : Chan)
  /-- `EV_PARSE_FAILURE` -/
  | parseFailure
  /-- `EV_TRANSPORT_FAILURE` -/
  | transportFailure
  /-- `EV_TICK_OVERRUN` -/
  | tickOverrun
  /-- `EV_CONTRACT(code, info)` -/
  | contract (violation : Contract)
  deriving DecidableEq, Repr

/-- One atomic step of one agent (R15, R60), or the reset line (R260). -/
inductive Input where
  /-- HOST issues a command word (R233) -/
  | command (w : CmdWord)
  /-- TIMER ticks (R192) -/
  | tick
  /-- TXE's turn to take its start step (R194) -/
  | start
  /-- TXE and TRANSPORT's turn to take the handoff step, with the transport's answer (R196) -/
  | handoff (r : Answer)
  /-- the reset input (R260) -/
  | reset
  deriving DecidableEq, Repr

/-- Everything DDC holds (10_state.md section 1), its two output streams (R39), HOST's position in its command
sequence (R35), and the agents' steps still to come. -/
structure State where
  /-- `CUR[0..15]` (R21) -/
  cur : Channels
  /-- `ARM` (R23) -/
  arm : Bool
  /-- `SNAP[0..15]` (R25) -/
  snap : Channels
  /-- `SNAP_ARM` (R25) -/
  snapArm : Bool
  /-- `MSG_OPEN` (R26) -/
  msgOpen : Bool
  /-- `PMASK[15:0]` (R26) -/
  pmask : BitVec 16
  /-- `PVAL[0..15]` (R26) -/
  pval : Channels
  /-- `PARM_VALID` (R26) -/
  parmValid : Bool
  /-- `PARM` (R26) -/
  parm : Bool
  /-- `FOUT[0..24]` (R27) -/
  fout : Frame
  /-- `DIN[0..24]` (R28) -/
  din : Frame
  /-- `DIN_LEN` (R28) -/
  dinLen : Byte
  /-- `DEC[0..15]` (R29) -/
  dec : Channels
  /-- `DEC_ARM` (R29) -/
  decArm : Bool
  /-- `DEC_FLAGS` (R29) -/
  decFlags : Byte
  /-- `TX_EN` (R30) -/
  txEn : Bool
  /-- `TX_STATE` (R30) -/
  txState : TxState
  /-- `TICK_PENDING` (R30) -/
  tickPending : Bool
  /-- `TXBUF[0..24]` (R31) -/
  txbuf : Frame
  /-- `FAULT`, 32 bits with 7:0 used (R32) -/
  faultReg : BitVec 32
  /-- `RESP_CODE` (R33) -/
  respCode : Byte
  /-- `RESP_DATA` (R33) -/
  respData : BitVec 32
  /-- the index of the next command in HOST's command sequence, with no wrap-around (R35; log 4) -/
  pc : Nat
  /-- the wire output: the frames the transport accepted, oldest first (R39) -/
  wire : List Frame
  /-- the event output, oldest first (R39, R238) -/
  events : List Event
  /-- the model's own field: the agents' steps still to come, next first (R15, R60; log 1) -/
  inputs : List Input
  deriving DecidableEq, Repr

/-- The reset values of R38 as a function of `RESET_CH` (R261), with both outputs empty, HOST at its first command
and no step to come (log 2, log 4, log 5). -/
def State.resetWith (resetCh : Channels) : State where
  cur := resetCh
  arm := false
  snap := Vector.replicate 16 0#11
  snapArm := false
  msgOpen := false
  pmask := 0#16
  pval := Vector.replicate 16 0#11
  parmValid := false
  parm := false
  fout := Vector.replicate 25 0x00#8
  din := Vector.replicate 25 0x00#8
  dinLen := 0#8
  dec := Vector.replicate 16 0#11
  decArm := false
  decFlags := 0x00#8
  txEn := false
  txState := .idle
  tickPending := false
  txbuf := Vector.replicate 25 0x00#8
  faultReg := 0x00000000#32
  respCode := 0x00#8
  respData := 0x00000000#32
  pc := 0
  wire := []
  events := []
  inputs := []

/-- The machine right after reset, with this spec's `RESET_CH` (R38). -/
def State.reset : State := State.resetWith Config.resetCh

end Sys2Proof.Machine
end

