-- ==== Sys2Proof/Machine/Flags.lean ====
section
/-!
DEFINITION. Every flag computation: the sticky bits of FAULT (10_state.md R32), the STATUS view (R34) and the flags byte of
a frame (40_frame_codec.md R104, R124).
-/

namespace Sys2Proof.Machine

/-- The number of `F_OVERRUN` in FAULT (R32). -/
def overrunBit : Nat := 7

/-- `FAULT[k] <- 1`, every other bit kept (R32). -/
def setFaultBit (k : Nat) (fault : BitVec 32) : BitVec 32 := fault ||| (1#32 <<< k)

/-- The flag that `TX_STATE` shows in STATUS: 0 = Idle, 1 = Transmitting (R30). -/
def TxState.bit : TxState → Bool
  | .idle => false
  | .transmitting => true

/-- The STATUS word, a read-only view; its fields from bits 31:16 down to bit 0 (R34, R223). -/
def statusWord (s : State) : BitVec 32 :=
  s.pmask ++ s.dinLen ++ BitVec.ofBool s.parmValid ++ BitVec.ofBool s.decArm ++ BitVec.ofBool s.snapArm
    ++ BitVec.ofBool s.arm ++ BitVec.ofBool s.msgOpen ++ BitVec.ofBool s.tickPending
    ++ BitVec.ofBool s.txState.bit ++ BitVec.ofBool s.txEn

/-- `flags(A) = A << ARM_FLAG_BIT`, an 8-bit value (R104). -/
def flagsByte (armBit : Fin 2) (a : Bool) : Byte := (BitVec.ofBool a).setWidth 8 <<< armBit.val

/-- `FL[ARM_FLAG_BIT]`: the arm flag a flags byte carries (R124). -/
def armOfFlags (armBit : Fin 2) (flags : Byte) : Bool := flags.getLsbD armBit.val

end Sys2Proof.Machine
end

