-- ==== Sys2Proof/Machine/Operands.lean ====
section
/-!
DEFINITION. The operand forms: signed arguments, bytes and flags in `ARG`, indices, field codes, clamping and
zero-extension (00_scope.md R10, R12; 20_memory.md R50, R56; 30_encoding.md R71, R72; 42_command_ingest.md R162, R166).
-/

namespace Sys2Proof.Machine

/-- `sval(ARG) = ARG - 2^32` if `ARG[31] = 1`, else `ARG` (R10). -/
def sval (arg : Arg) : Int :=
  if arg.getLsbD 31 then (arg.toNat : Int) - 2 ^ 32 else (arg.toNat : Int)

/-- The byte of form AB: `ARG[7:0]` (R72). -/
def argByte (arg : Arg) : Byte := arg.extractLsb' 0 8

/-- The flag of form AF: `ARG[0]` (R72). -/
def argFlag (arg : Arg) : Bool := arg.getLsbD 0

/-- `clamp(v) = min(max(v, 0), 2047)` on integers (R12, R166). -/
def clamp (v : Int) : Int := min (max v Config.clampLo) Config.clampHi

/-- A value outside [0, 2047], which `CH_SET` rejects (R143). -/
def outOfChannelRange (v : Int) : Bool := v < Config.clampLo || v > Config.clampHi

/-- `v[10:0]` as a channel value (R143, R169). -/
def lowChan (v : Int) : Chan := BitVec.ofInt 11 v

/-- `zext_32` (R10, R56). -/
def zext32 {width : Nat} (v : BitVec width) : BitVec 32 := v.setWidth 32

/-- The element an index names in a space of `n` elements; `none` when `IDX` is outside the legal range (R50, R71). -/
def index? (n : Nat) (idx : Byte) : Option (Fin n) :=
  if h : idx.toNat < n then some ⟨idx.toNat, h⟩ else none

/-- What a field code targets (R162). -/
inductive FieldTarget where
  /-- codes 0 to 15: `CUR[code]` -/
  | channel (i : Fin 16)
  /-- code 0x10: `ARM` -/
  | armed
  /-- codes 0x11 to 0xFF: unknown, ignored (R163) -/
  | unknown
  deriving DecidableEq, Repr

/-- The target of a field code; every code is legal (R71, R162). -/
def fieldTarget (code : Byte) : FieldTarget :=
  match index? 16 code with
  | some i => .channel i
  | none => if code = 0x10#8 then .armed else .unknown

end Sys2Proof.Machine
end

