-- ==== Sys2Proof/Machine/Ops.lean ====
section
/-!
DEFINITION. The named operations every command and engine step is built from: `respond`, `emit`, `raise` (00_scope.md R12,
60_exceptions.md R234), the indexed read (20_memory.md R50, R56), the staging registers' updates, and HOST's position.
DDC has no trap entry and no trap return (R240): the error path `raise` is its whole exception entry, and nothing returns
from it.
-/

namespace Sys2Proof.Machine

/-- Result code OK (R230). -/
def okCode : Byte := 0x00#8

/-- The result code of an error (R230). -/
def Contract.code : Contract → Byte
  | .indexOutOfRange _ => 0x01#8
  | .invalidChannelValue _ => 0x02#8
  | .badHeader _ => 0x03#8
  | .badFooter _ => 0x04#8
  | .badLength _ => 0x05#8
  | .sequenceError _ => 0x06#8
  | .illegalCommand _ => 0x07#8

/-- `respond(code, data)` (R12, R33). -/
def respond (code : Byte) (data : BitVec 32) (s : State) : State :=
  { s with respCode := code, respData := data }

/-- `emit EV(...)`: one event appended to the event output (R12, R238). -/
def emit (e : Event) (s : State) : State := { s with events := s.events ++ [e] }

/-- `FAULT[k] <- 1` (R32). -/
def recordFault (k : Nat) (s : State) : State := { s with faultReg := setFaultBit k s.faultReg }

/-- `raise E(info)` on the state before the command (R234): the sticky bit `code(E) - 1`, the event, the response with
data 0, and nothing else. -/
def raise (e : Contract) (s : State) : State :=
  respond e.code 0#32 (emit (.contract e) (recordFault (e.code.toNat - 1) s))

/-- A command that ends with `respond(OK, data)` (R33). -/
def complete (data : BitVec 32) (s : State) : Host.Outcome State Fault Refusal :=
  .next (respond okCode data s)

/-- A command that takes the error path (R234). -/
def fail (e : Contract) (s : State) : Host.Outcome State Fault Refusal := .next (raise e s)

/-- An indexed read: one element, zero-extended, or IndexOutOfRange (R50, R56). -/
def readElement {width n : Nat} (file : Vector (BitVec width) n) (idx : Byte) (s : State) :
    Host.Outcome State Fault Refusal :=
  match index? n idx with
  | none => fail (.indexOutOfRange idx) s
  | some i => complete (zext32 file[i]) s

/-- The published ChannelState `S = (CUR[0..15], ARM)` (R24). -/
def published (s : State) : ChannelState := ⟨s.cur, s.arm⟩

/-- The host snapshot `(SNAP[0..15], SNAP_ARM)` (R25). -/
def hostSnapshot (s : State) : ChannelState := ⟨s.snap, s.snapArm⟩

/-- `MSG_OPEN <- b; PMASK <- 0; PARM_VALID <- 0`: the staging emptied, the message open or closed (R168, R170, R171). -/
def clearStaging (opened : Bool) (s : State) : State :=
  { s with msgOpen := opened, pmask := 0#16, parmValid := false }

/-- `PVAL[i] <- c; PMASK[i] <- 1` (R169). -/
def stageChannel (i : Fin 16) (c : Chan) (s : State) : State :=
  { s with pval := s.pval.set i c, pmask := s.pmask ||| (1#16 <<< i.val) }

/-- `PARM <- a; PARM_VALID <- 1` (R169). -/
def stageArm (a : Bool) (s : State) : State := { s with parm := a, parmValid := true }

/-- The channels after a commit: `PVAL[i]` where `PMASK[i] = 1`, `CUR[i]` elsewhere (R170). -/
def mergeStaged (mask : BitVec 16) (staged cur : Channels) : Channels :=
  Vector.ofFn fun i => if mask.getLsbD i.val then staged[i] else cur[i]

/-- Every staged update applied at once (R170). -/
def applyStaged (s : State) : State :=
  { s with
    cur := mergeStaged s.pmask s.pval s.cur
    arm := if s.parmValid then s.parm else s.arm }

/-- HOST's position advances by one for every command, legal or not (R35, R233). -/
def advancePc (s : State) : State := { s with pc := s.pc + 1 }

/-- The same state with other steps to come (log 1). -/
def withInputs (xs : List Input) (s : State) : State := { s with inputs := xs }

/-- The steps still to come after the next one is taken (R60). -/
def dropInput (s : State) : State := withInputs s.inputs.tail s

/-- A step placed before every other step to come (log 10). -/
def placeInput (x : Input) (s : State) : State := withInputs (x :: s.inputs) s

/-- The reset input (R260): every element at its reset value in one step, an open message and a handoff in progress
cancelled; frames and events already output stay, and HOST's sequence and the steps to come are not DDC's to reset (log 4,
log 5). -/
def applyReset (s : State) : State :=
  { State.reset with pc := s.pc, wire := s.wire, events := s.events, inputs := s.inputs }

end Sys2Proof.Machine
end

