-- ==== Sys2Proof/Machine/ChannelState.lean ====
section
/-!
DEFINITION. The ChannelState commands (41_channel_state.md).
-/

namespace Sys2Proof.Machine

/-- `CH_GET i` (R141). -/
def execChGet (idx : Byte) (s : State) : Host.Outcome State Fault Refusal := readElement s.cur idx s

/-- `CH_SET i, v` (R143): the index is checked first, the value is rejected and never clamped. -/
def execChSet (idx : Byte) (arg : Arg) (s : State) : Host.Outcome State Fault Refusal :=
  match index? 16 idx with
  | none => fail (.indexOutOfRange idx) s
  | some i =>
    if outOfChannelRange (sval arg) then fail (.invalidChannelValue (sval arg)) s
    else complete 0#32 { s with cur := s.cur.set i (lowChan (sval arg)) }

/-- `ARM_GET` (R145). -/
def execArmGet (s : State) : Host.Outcome State Fault Refusal := complete (zext32 (BitVec.ofBool s.arm)) s

/-- `SNAPSHOT` (R147): `CUR` and `ARM` copied in one step. -/
def execSnapshot (s : State) : Host.Outcome State Fault Refusal :=
  complete 0#32 { s with snap := s.cur, snapArm := s.arm }

/-- `SNAP_GET i` (R149). -/
def execSnapGet (idx : Byte) (s : State) : Host.Outcome State Fault Refusal := readElement s.snap idx s

/-- `SNAP_ARM_GET` (R151). -/
def execSnapArmGet (s : State) : Host.Outcome State Fault Refusal :=
  complete (zext32 (BitVec.ofBool s.snapArm)) s

end Sys2Proof.Machine
end

