-- ==== Sys2Proof/Machine/CommandIngestor.lean ====
section
/-!
DEFINITION. The CommandIngestor commands (42_command_ingest.md).
-/

namespace Sys2Proof.Machine

/-- `MSG_BEGIN` (R168). -/
def execMsgBegin (s : State) : Host.Outcome State Fault Refusal :=
  if s.msgOpen then fail (.sequenceError .msgBegin) s else complete 0#32 (clearStaging true s)

/-- A channel field (R166, R169, R173): the clamped value is staged; a clamp is reported in response bit 0 and as an
event. -/
def stageField (code : Byte) (i : Fin 16) (v : Int) (s : State) : Host.Outcome State Fault Refusal :=
  if clamp v ≠ v then
    complete 1#32 (emit (.clamp code v (lowChan (clamp v))) (stageChannel i (lowChan (clamp v)) s))
  else complete 0#32 (stageChannel i (lowChan (clamp v)) s)

/-- `MSG_FIELD f, v` (R169): a channel, the arm flag (R167), or an unknown field, which is ignored (R163). -/
def execMsgField (idx : Byte) (arg : Arg) (s : State) : Host.Outcome State Fault Refusal :=
  if s.msgOpen then
    match fieldTarget idx with
    | .channel i => stageField idx i (sval arg) s
    | .armed => complete 0#32 (stageArm (sval arg != 0) s)
    | .unknown => complete 2#32 s
  else fail (.sequenceError .msgField) s

/-- `MSG_COMMIT` (R170): every staged update in one step. -/
def execMsgCommit (s : State) : Host.Outcome State Fault Refusal :=
  if s.msgOpen then complete 0#32 (clearStaging false (applyStaged s)) else fail (.sequenceError .msgCommit) s

/-- `MSG_ABORT` (R171): valid whether or not a message is open. -/
def execMsgAbort (s : State) : Host.Outcome State Fault Refusal :=
  complete 0#32 (emit .parseFailure (clearStaging false s))

end Sys2Proof.Machine
end

