-- ==== Sys2Proof/Machine/ControlStatus.lean ====
section
/-!
DEFINITION. The control and status commands (44_control_status.md).
-/

namespace Sys2Proof.Machine

/-- `NOP` (R221): it still overwrites the previous response. -/
def execNop (s : State) : Host.Outcome State Fault Refusal := complete 0#32 s

/-- `STATUS_GET` (R223). -/
def execStatusGet (s : State) : Host.Outcome State Fault Refusal := complete (statusWord s) s

/-- `FAULT_GET` (R225): it does not clear FAULT. -/
def execFaultGet (s : State) : Host.Outcome State Fault Refusal := complete s.faultReg s

end Sys2Proof.Machine
end

