-- ==== Sys2Proof/Machine/Frames.lean ====
section
/-!
DEFINITION. The bit-packing primitive and the frame format (40_frame_codec.md R100 to R109, R124, R125).
The functions on frames take `ARM_FLAG_BIT` as an argument (D10; log 6).
-/

namespace Sys2Proof.Machine

/-! ## `pack_le` and `unpack_le` -/

/-- `W = w_0 + ... + w_(n-1)`, the length of the stream in bits (R100). -/
def totalWidth : List Nat → Nat
  | [] => 0
  | w :: ws => w + totalWidth ws

/-- The stream from offset `off` on: `Σ_k v_k << off_k` (R100). -/
def streamFrom (off : Nat) : List (Nat × Nat) → Nat
  | [] => 0
  | (v, w) :: rest => v <<< off + streamFrom (off + w) rest

/-- The number of bytes that `W` bits fill, `ceil(W/8)` (R100). -/
def byteCount (bits : Nat) : Nat := (bits + 7) / 8

/-- Byte `j` of a stream: `(T >> 8j) & 0xFF` (R100). -/
def streamByte (t j : Nat) : Byte := BitVec.ofNat 8 (t >>> (8 * j))

/-- `pack_le` (R100): the stream's bytes, the first the low one, the unused high bits of the last byte 0. A pair whose value
is too wide is a contract violation that no DDC path passes (log 11). -/
def packLe (pairs : List (Nat × Nat)) : List Byte :=
  (List.range (byteCount (totalWidth (pairs.map Prod.snd)))).map
    (streamByte (streamFrom 0 pairs))

/-- `T = Σ_j B[j] << 8j` (R101). -/
def streamOfBytes : List Byte → Nat
  | [] => 0
  | b :: rest => b.toNat + streamOfBytes rest <<< 8

/-- The fields of a stream from offset `off` on: `v_k = (T >> off_k) & (2^(w_k) - 1)` (R101). -/
def fieldsFrom (t off : Nat) : List Nat → List Nat
  | [] => []
  | w :: ws => (t >>> off) % 2 ^ w :: fieldsFrom t (off + w) ws

/-- `unpack_le` (R101). -/
def unpackLe (bytes : List Byte) (widths : List Nat) : List Nat :=
  fieldsFrom (streamOfBytes bytes) 0 widths

/-! ## The frame -/

/-- The sixteen pairs `(CH[c], 11)` (R102). -/
def channelPairs (ch : Channels) : List (Nat × Nat) := ch.toList.map fun c => (c.toNat, 11)

/-- The widths `[11 × 16]` (R124). -/
def channelWidths : List Nat := List.replicate 16 11

theorem packLe_length (pairs : List (Nat × Nat)) :
    (packLe pairs).length = byteCount (totalWidth (pairs.map Prod.snd)) := by
  simp [packLe]

theorem channelPairs_widths (ch : Channels) : (channelPairs ch).map Prod.snd = channelWidths := by
  simp only [channelPairs, List.map_map, channelWidths]
  rw [show (Prod.snd ∘ fun c : Chan => (c.toNat, 11)) = fun _ => 11 from rfl, List.map_const']
  simp

theorem payload_length (ch : Channels) : (packLe (channelPairs ch)).length = 22 := by
  rw [packLe_length, channelPairs_widths]
  decide

theorem fieldsFrom_length (t off : Nat) (ws : List Nat) : (fieldsFrom t off ws).length = ws.length := by
  induction ws generalizing off with
  | nil => rfl
  | cons w ws ih => simp [fieldsFrom, ih]

/-- The payload `P(S)`: 22 bytes, 176 bits with no padding (R102). -/
def payload (ch : Channels) : Vector Byte 22 :=
  ⟨(packLe (channelPairs ch)).toArray, payload_length ch⟩

/-- `encode(S)` (R106): header, payload, flags, footer. -/
def encodeFrame (armBit : Fin 2) (c : ChannelState) : Frame :=
  (#v[Config.header] ++ payload c.ch ++ #v[flagsByte armBit c.arm] ++ #v[Config.footer] :
    Vector Byte (1 + 22 + 1 + 1))

/-- Why a decode fails (R124). -/
inductive DecodeError where
  | badLength
  | badHeader
  | badFooter
  deriving DecidableEq, Repr

/-- What a decode gives: `(CH[0..15], A, FL)` or an error (R124). -/
inductive DecodeResult where
  | decoded (state : ChannelState) (flags : Byte)
  | failed (e : DecodeError)
  deriving DecidableEq, Repr

/-- The 22 payload bytes of a frame, bytes 1 to 22 (R52). -/
def payloadBytes (f : Frame) : List Byte := (f.toList.drop 1).take 22

/-- The sixteen channels a payload carries (R124). -/
def unpackChannels (bytes : List Byte) : Channels :=
  ⟨((unpackLe bytes channelWidths).map (BitVec.ofNat 11)).toArray, by
    simp [unpackLe, fieldsFrom_length, channelWidths]⟩

/-- `decode(B, n)` (R124): the length, then the header, then the footer (R125); bits of the flags byte other than the arm bit
are kept and are no error. -/
def decodeFrame (armBit : Fin 2) (buf : Frame) (n : Byte) : DecodeResult :=
  if n ≠ 25#8 then .failed .badLength
  else if buf[0] ≠ Config.header then .failed .badHeader
  else if buf[24] ≠ Config.footer then .failed .badFooter
  else .decoded ⟨unpackChannels (payloadBytes buf), armOfFlags armBit buf[23]⟩ buf[23]

end Sys2Proof.Machine
end

