-- ==== Sys2Proof/Machine/FrameCodec.lean ====
section
/-!
DEFINITION. The FrameCodec commands (40_frame_codec.md sections 3 to 6).
-/

namespace Sys2Proof.Machine

/-- `ENCODE` (R110): encodes the host snapshot bank, not `CUR`. -/
def execEncode (s : State) : Host.Outcome State Fault Refusal :=
  complete 0#32 { s with fout := encodeFrame Config.armFlagBit (hostSnapshot s) }

/-- `FOUT_GET j` (R112). -/
def execFoutGet (idx : Byte) (s : State) : Host.Outcome State Fault Refusal := readElement s.fout idx s

/-- `DIN_CLEAR` (R120): the count only; the bytes are not erased. -/
def execDinClear (s : State) : Host.Outcome State Fault Refusal := complete 0#32 { s with dinLen := 0#8 }

/-- `DIN` after a push of `b`: stored at `DIN[DIN_LEN]` while `DIN_LEN < 25` (R122). -/
def pushedBytes (b : Byte) (len : Byte) (din : Frame) : Frame :=
  match index? 25 len with
  | some i => din.set i b
  | none => din

/-- `DIN_LEN` after a push: one more, and 255 stays 255 (R122). -/
def pushedLen (len : Byte) : Byte := if len.toNat < 255 then len + 1#8 else len

/-- `DIN_PUSH b` (R122): never fails for a full buffer. -/
def execDinPush (arg : Arg) (s : State) : Host.Outcome State Fault Refusal :=
  complete 0#32 { s with din := pushedBytes (argByte arg) s.dinLen s.din, dinLen := pushedLen s.dinLen }

/-- `DECODE` (R126): on success the result bank is written, on failure it is unchanged. -/
def execDecode (s : State) : Host.Outcome State Fault Refusal :=
  match decodeFrame Config.armFlagBit s.din s.dinLen with
  | .failed .badLength => fail (.badLength s.dinLen) s
  | .failed .badHeader => fail (.badHeader s.din[0]) s
  | .failed .badFooter => fail (.badFooter s.din[24]) s
  | .decoded c flags => complete 0#32 { s with dec := c.ch, decArm := c.arm, decFlags := flags }

/-- `DEC_GET i` (R130). -/
def execDecGet (idx : Byte) (s : State) : Host.Outcome State Fault Refusal := readElement s.dec idx s

/-- `DEC_FLAGS_GET` (R132): bit 8 is `DEC_ARM`, bits 7:0 are `DEC_FLAGS`. -/
def execDecFlagsGet (s : State) : Host.Outcome State Fault Refusal :=
  complete (zext32 (BitVec.ofBool s.decArm ++ s.decFlags)) s

end Sys2Proof.Machine
end

