-- ==== Sys2Proof/Machine/TransmitScheduler.lean ====
section
/-!
DEFINITION. The TransmitScheduler (43_transmit_scheduler.md): the tick, start and handoff steps and the two commands.
-/

namespace Sys2Proof.Machine

/-- The tick step of TIMER (R192, R193): ignored while disabled, an overrun while a tick is pending, else latched. -/
def tickStep (s : State) : State :=
  if s.txEn then
    if s.tickPending then emit .tickOverrun (recordFault overrunBit s) else { s with tickPending := true }
  else s

/-- The start step is enabled exactly when `TX_STATE = 0` and `TICK_PENDING = 1` and `TX_EN = 1` (R194). -/
def startEnabled (s : State) : Bool := s.txState == .idle && s.tickPending && s.txEn

/-- The start step of TXE (R194): the live ChannelState encoded in one step. A start that is not enabled does not happen:
nothing changes (log 3). -/
def startStep (s : State) : State :=
  if startEnabled s then
    { s with
      tickPending := false
      txbuf := encodeFrame Config.armFlagBit (published s)
      txState := .transmitting }
  else s

/-- The handoff step is enabled exactly when `TX_STATE = 1` (R196). -/
def handoffEnabled (s : State) : Bool := s.txState == .transmitting

/-- What the transport's answer does to the outputs (R196, R198). -/
def deliver (r : Answer) (s : State) : State :=
  match r with
  | .ok => { s with wire := s.wire ++ [s.txbuf] }
  | .fail => emit .transportFailure s

/-- The handoff step of TXE and TRANSPORT (R196, R198, R199). A handoff that is not enabled does not happen: nothing changes
(log 3). -/
def handoffStep (r : Answer) (s : State) : State :=
  if handoffEnabled s then { deliver r s with txState := .idle } else s

/-- `TX_ENABLE e` (R200): disabling also drops a pending tick. -/
def execTxEnable (arg : Arg) (s : State) : Host.Outcome State Fault Refusal :=
  complete 0#32 { s with txEn := argFlag arg, tickPending := argFlag arg && s.tickPending }

/-- `TXF_GET j` (R202). -/
def execTxfGet (idx : Byte) (s : State) : Host.Outcome State Fault Refusal := readElement s.txbuf idx s

end Sys2Proof.Machine
end

