-- ==== Sys2Proof/Machine/Dispatch.lean ====
section
/-!
DEFINITION. One arm per command: the pseudocode of its rule (60_exceptions.md R233, opcode_table.json).
-/

namespace Sys2Proof.Machine

def exec (i : Instr) (s : State) : Host.Outcome State Fault Refusal :=
  match i with
  | .nop => Sys2Proof.Machine.execNop s
  | .chGet idx => Sys2Proof.Machine.execChGet idx s
  | .chSet idx arg => Sys2Proof.Machine.execChSet idx arg s
  | .armGet => Sys2Proof.Machine.execArmGet s
  | .snapshot => Sys2Proof.Machine.execSnapshot s
  | .snapGet idx => Sys2Proof.Machine.execSnapGet idx s
  | .snapArmGet => Sys2Proof.Machine.execSnapArmGet s
  | .encode => Sys2Proof.Machine.execEncode s
  | .foutGet idx => Sys2Proof.Machine.execFoutGet idx s
  | .dinClear => Sys2Proof.Machine.execDinClear s
  | .dinPush arg => Sys2Proof.Machine.execDinPush arg s
  | .decode => Sys2Proof.Machine.execDecode s
  | .decGet idx => Sys2Proof.Machine.execDecGet idx s
  | .decFlagsGet => Sys2Proof.Machine.execDecFlagsGet s
  | .msgBegin => Sys2Proof.Machine.execMsgBegin s
  | .msgField idx arg => Sys2Proof.Machine.execMsgField idx arg s
  | .msgCommit => Sys2Proof.Machine.execMsgCommit s
  | .msgAbort => Sys2Proof.Machine.execMsgAbort s
  | .txEnable arg => Sys2Proof.Machine.execTxEnable arg s
  | .txfGet idx => Sys2Proof.Machine.execTxfGet idx s
  | .statusGet => Sys2Proof.Machine.execStatusGet s
  | .faultGet => Sys2Proof.Machine.execFaultGet s

end Sys2Proof.Machine
end

