-- ==== Sys2Proof/Machine/Agents.lean ====
section
/-!
DEFINITION. One atomic step of each agent (00_scope.md R13, R15; 60_exceptions.md R233; 70_reset_and_hazards.md R260).
-/

namespace Sys2Proof.Machine

/-- `host_step(w)` (R233): decode first, IllegalCommand on a word the decoder rejects, else the command's own rule; HOST's
position advances by one either way (R35). -/
def hostStep (w : CmdWord) (s : State) : Host.Outcome State Fault Refusal :=
  match decode w with
  | none => fail (.illegalCommand w) (advancePc s)
  | some i => exec i (advancePc s)

/-- The step an agent takes (R15), and the reset input (R260). -/
def agentStep (x : Input) (s : State) : Host.Outcome State Fault Refusal :=
  match x with
  | .command w => hostStep w s
  | .tick => .next (tickStep s)
  | .start => .next (startStep s)
  | .handoff r => .next (handoffStep r s)
  | .reset => .next (applyReset s)

/-- The next step of the run's one total order (R60): the first of the steps to come. With none to come DDC waits (R51,
R262): nothing changes (log 2). -/
def nextStep (s : State) : Host.Outcome State Fault Refusal :=
  match s.inputs with
  | [] => .next s
  | x :: _ => agentStep x (dropInput s)

/-- The state with the command word `w`, taken from an opcode-table word of `nbits` bits, as the next step to come
(log 10, log 16). -/
def placeTableWord (s : State) (nbits w : Nat) : State :=
  placeInput (.command (BitVec.ofNat 64 (w % 2 ^ nbits))) s

end Sys2Proof.Machine
end

