-- ==== Sys2Proof/Machine/Step.lean ====
section
/-!
DEFINITION. One step of DDC, and how a command word is placed as the next one.
-/

namespace Sys2Proof.Machine

/-- One step: the next atomic step of the run (20_memory.md R60). -/
def step (s : State) : Host.Outcome State Fault Refusal := nextStep s

/-- `s` with one command word placed so that the very next step runs it (log 10). -/
def State.withFetchWord (s : State) (nbits w : Nat) : State := placeTableWord s nbits w

end Sys2Proof.Machine
end

