-- ==== Sys2Proof/Machine/Assembler.lean ====
section
/-!
DEFINITION. The assembler's line syntax and the pseudo-instructions (30_encoding.md R79, R80), and the parser-side field codes
(42_command_ingest.md R162, R161). Functions over text and `Instr` only: the machine never calls them. Text is a list of
characters, so that the kernel can run them. What R79 leaves open about spacing and digits is fixed in log 17.
-/

namespace Sys2Proof.Machine

/-! ## Field names (R162) -/

/-- The field code of a named inbound field: the four axes, `armed`, or an aux field of `AUX_NAME_MAP` (R162). `none` is a name
the parser does not know, which it need not present at all. -/
def fieldCodeOfName (name : List Char) : Option Byte :=
  if name = "roll".toList then some 0#8
  else if name = "pitch".toList then some 1#8
  else if name = "throttle".toList then some 2#8
  else if name = "yaw".toList then some 3#8
  else if name = "armed".toList then some 0x10#8
  else (Config.auxNameMap name).map fun k => BitVec.ofNat 8 (4 + k.val)

/-- A boolean field value: 1 for true, 0 for false (R161). -/
def boolValue (b : Bool) : Arg := if b then 1#32 else 0#32

/-! ## Pseudo-instructions (R80) -/

/-- The pseudo-instructions of R80, their operands already field codes, arguments and bytes. -/
inductive Pseudo where
  | apply (fields : List (Byte × Arg))
  | parseFail
  | loadFrame (bytes : List Byte)
  | start
  | stop
  | encodeNow
  deriving DecidableEq, Repr

/-- `DIN_PUSH b` of a byte (R79, form AB). -/
def pushByte (b : Byte) : Instr := .dinPush (b.setWidth 32)

/-- HOST ends the loop of `STOP` on an answer of `STATUS_GET` whose bit 1, `TX_STATE`, is 0 (R80, R272). -/
def stopDone (answer : BitVec 32) : Bool := !answer.getLsbD 1

/-- `STATUS_GET` repeated until `RESP_DATA[1] = 0` (R80): the commands HOST issues when `answers` are the data of the answers it has
had, in order. The first needs no answer; each answer with bit 1 set brings one more, and one with bit 1 clear ends the loop. -/
def pollUntilIdle : List (BitVec 32) → List Instr
  | [] => [.statusGet]
  | d :: rest => .statusGet :: if stopDone d then [] else pollUntilIdle rest

/-- The expansion of a pseudo-instruction (R80). Only that of `STOP` depends on what HOST has seen: `answers` are the answers of its
`STATUS_GET` commands. -/
def Pseudo.expand (answers : List (BitVec 32)) : Pseudo → List Instr
  | .apply fields => .msgBegin :: fields.map (fun f => .msgField f.1 f.2) ++ [.msgCommit]
  | .parseFail => [.msgAbort]
  | .loadFrame bytes => .dinClear :: bytes.map pushByte
  | .start => [.txEnable 1#32]
  | .stop => .txEnable 0#32 :: pollUntilIdle answers
  | .encodeNow => [.snapshot, .encode]

/-! ## Line syntax (R79) -/

/-- What a line says. -/
inductive Statement where
  /-- nothing but spaces and a comment -/
  | blank
  | command (i : Instr)
  | pseudo (p : Pseudo)
  deriving DecidableEq, Repr

/-- The name of a mnemonic, as characters (R75). -/
def mnemonicSpelling : Mnemonic → List Char
  | .nop => "NOP".toList
  | .chGet => "CH_GET".toList
  | .chSet => "CH_SET".toList
  | .armGet => "ARM_GET".toList
  | .snapshot => "SNAPSHOT".toList
  | .snapGet => "SNAP_GET".toList
  | .snapArmGet => "SNAP_ARM_GET".toList
  | .encode => "ENCODE".toList
  | .foutGet => "FOUT_GET".toList
  | .dinClear => "DIN_CLEAR".toList
  | .dinPush => "DIN_PUSH".toList
  | .decode => "DECODE".toList
  | .decGet => "DEC_GET".toList
  | .decFlagsGet => "DEC_FLAGS_GET".toList
  | .msgBegin => "MSG_BEGIN".toList
  | .msgField => "MSG_FIELD".toList
  | .msgCommit => "MSG_COMMIT".toList
  | .msgAbort => "MSG_ABORT".toList
  | .txEnable => "TX_ENABLE".toList
  | .txfGet => "TXF_GET".toList
  | .statusGet => "STATUS_GET".toList
  | .faultGet => "FAULT_GET".toList

/-- A space or a tab (log 17). -/
def isBlank (c : Char) : Bool := c == ' ' || c == '\t'

/-- Text without the blanks at its ends. -/
def trim (cs : List Char) : List Char := ((cs.dropWhile isBlank).reverse.dropWhile isBlank).reverse

/-- Text split at a separator. -/
def splitAt (sep : Char) : List Char → List (List Char)
  | [] => [[]]
  | c :: rest =>
    if c == sep then [] :: splitAt sep rest
    else
      match splitAt sep rest with
      | [] => [[c]]
      | part :: parts => (c :: part) :: parts

/-- The operands of a line, separated by commas (R79); no text is no operand. -/
def operandsOf (cs : List Char) : List (List Char) :=
  if trim cs = [] then [] else (splitAt ',' cs).map trim

/-- A digit's value in base 10 or 16. -/
def digitValue (base : Nat) (c : Char) : Option Nat :=
  let n := c.toNat
  let v := if 48 ≤ n ∧ n ≤ 57 then n - 48 else if 65 ≤ n ∧ n ≤ 70 then n - 55 else if 97 ≤ n ∧ n ≤ 102 then n - 87 else 16
  if v < base then some v else none

/-- The number that a run of digits writes after the digits read so far. -/
def digitsFrom (base : Nat) (acc : Nat) : List Char → Option Nat
  | [] => some acc
  | c :: rest =>
    match digitValue base c with
    | none => none
    | some d => digitsFrom base (acc * base + d) rest

/-- A decimal or `0x` hexadecimal number (R79); no digit is no number. -/
def readNat : List Char → Option Nat
  | [] => none
  | '0' :: 'x' :: [] => none
  | '0' :: 'x' :: rest => digitsFrom 16 0 rest
  | cs => digitsFrom 10 0 cs

/-- A signed decimal or hexadecimal number (R79). -/
def readInt : List Char → Option Int
  | '-' :: rest => (readNat rest).map fun n => -(n : Int)
  | cs => (readNat cs).map fun n => (n : Int)

/-- A number 0 to 255 as a byte (R79, forms I and AB). -/
def readByte (cs : List Char) : Option Byte :=
  match readNat cs with
  | some n => if n ≤ 255 then some (BitVec.ofNat 8 n) else none
  | none => none

/-- A value in [-2^31, 2^31-1] as 32-bit two's complement (R79, form IA). -/
def readArg (cs : List Char) : Option Arg :=
  match readInt cs with
  | some v => if -2 ^ 31 ≤ v ∧ v ≤ 2 ^ 31 - 1 then some (BitVec.ofInt 32 v) else none
  | none => none

/-- A flag 0 or 1 as `ARG` (R79, form AF). -/
def readFlag (cs : List Char) : Option Arg :=
  match readNat cs with
  | some n => if n ≤ 1 then some (BitVec.ofNat 32 n) else none
  | none => none

/-- The first operand of `MSG_FIELD`: a field code, one of the five names, or `chN` (R79). The aux names of `AUX_NAME_MAP` are the
parser's, not the assembler's (D17). -/
def readField (cs : List Char) : Option Byte :=
  if cs = "roll".toList then some 0#8
  else if cs = "pitch".toList then some 1#8
  else if cs = "throttle".toList then some 2#8
  else if cs = "yaw".toList then some 3#8
  else if cs = "armed".toList then some 0x10#8
  else
    match cs with
    | 'c' :: 'h' :: d :: digits =>
      match digitsFrom 10 0 (d :: digits) with
      | some n => if n ≤ 15 then some (BitVec.ofNat 8 n) else none
      | none => none
    | _ => readByte cs

/-- A field's value in `APPLY`: `true`, `false` or a signed number (R80). -/
def readValue (cs : List Char) : Option Arg :=
  if cs = "true".toList then some (boolValue true)
  else if cs = "false".toList then some (boolValue false)
  else readArg cs

/-- One `f: v` of `APPLY` (R80). -/
def readPair (cs : List Char) : Option (Byte × Arg) :=
  match splitAt ':' cs with
  | [f, v] =>
    match readField (trim f), readValue (trim v) with
    | some code, some arg => some (code, arg)
    | _, _ => none
  | _ => none

/-- Every entry read, or none. -/
def readAll {α : Type} (read : List Char → Option α) : List (List Char) → Option (List α)
  | [] => some []
  | cs :: rest =>
    match read cs, readAll read rest with
    | some a, some as => some (a :: as)
    | _, _ => none

/-- The braces that enclose the fields of `APPLY` (R80). -/
def openBrace : Char := Char.ofNat 0x7B

/-- See `openBrace`. -/
def closeBrace : Char := Char.ofNat 0x7D

/-- The text between the braces of `APPLY`. -/
def insideBraces (cs : List Char) : Option (List Char) :=
  match trim cs with
  | [] => none
  | c :: rest =>
    match rest.reverse with
    | [] => none
    | d :: back => if c = openBrace ∧ d = closeBrace then some back.reverse else none

/-- The command a mnemonic and its operands write (R79). -/
def commandOf (m : Mnemonic) (operands : List (List Char)) : Option Instr :=
  match m.row.form, operands with
  | .N, [] => some (m.command 0#8 0#32)
  | .I, [i] => (readByte i).map fun idx => m.command idx 0#32
  | .IA, [i, v] =>
    match (if m = .msgField then readField i else readByte i), readArg v with
    | some idx, some arg => some (m.command idx arg)
    | _, _ => none
  | .AB, [b] => (readByte b).map fun byte => m.command 0#8 (byte.setWidth 32)
  | .AF, [f] => (readFlag f).map fun arg => m.command 0#8 arg
  | _, _ => none

/-- The pseudo-instruction a name and the rest of its line write (R80). -/
def pseudoOf (name rest : List Char) : Option Pseudo :=
  if name = "APPLY".toList then
    match insideBraces rest with
    | some fields => (readAll readPair (operandsOf fields)).map .apply
    | none => none
  else if name = "LOAD_FRAME".toList then
    if operandsOf rest = [] then none else (readAll readByte (operandsOf rest)).map .loadFrame
  else if operandsOf rest ≠ [] then none
  else if name = "PARSE_FAIL".toList then some .parseFail
  else if name = "START".toList then some .start
  else if name = "STOP".toList then some .stop
  else if name = "ENCODE_NOW".toList then some .encodeNow
  else none

/-- One line of assembler text (R79): `none` is an assembly error, not a command. `;` begins a comment. -/
def assembleLine (line : List Char) : Option Statement :=
  let text := trim (line.takeWhile (· != ';'))
  let name := text.takeWhile fun c => !isBlank c
  let rest := text.dropWhile fun c => !isBlank c
  if text = [] then some .blank
  else
    match opcodeTable.find? (fun row => mnemonicSpelling row.mnemonic == name) with
    | some row => (commandOf row.mnemonic (operandsOf rest)).map .command
    | none => (pseudoOf name rest).map .pseudo

end Sys2Proof.Machine
end

