-- ==== Sys2Proof/Safety.lean ====
section
/-!
DEFINITION. The terms claims about DDC are made in: runs and schedules, fairness (43_transmit_scheduler.md R205), who issues what, the
invariant, the states an error or a success leaves, and what no step can observe.
-/

namespace Sys2Proof.Machine

/-! ## Runs -/

/-- The state after an agent's step (every agent's step answers a next state). -/
def takeStep (x : Input) (s : State) : State :=
  match agentStep x s with
  | .next t => t
  | .fault _ => s
  | .refused _ => s

/-- The state after a list of steps, one total order (R60). -/
def runOf (xs : List Input) (s : State) : State := xs.foldl (fun s x => takeStep x s) s

/-- The states a list of steps goes through, the first and the last among them. -/
def statesAlong : List Input → State → List State
  | [], s => [s]
  | x :: xs, s => s :: statesAlong xs (takeStep x s)

/-- The state before step `n` of an infinite schedule. -/
def stateAt (sched : Nat → Input) (s : State) : Nat → State
  | 0 => s
  | n + 1 => takeStep (sched n) (stateAt sched s n)

/-- Fairness (R205): a start step that stays enabled is eventually taken, and the transport eventually answers each handoff. An
assumption on schedules, not a rule of the step (log 14). -/
def WeaklyFair (sched : Nat → Input) (s : State) : Prop :=
  (∀ n, (∀ m, n ≤ m → startEnabled (stateAt sched s m) = true) → ∃ m, n ≤ m ∧ sched m = .start) ∧
  (∀ n, (∀ m, n ≤ m → handoffEnabled (stateAt sched s m) = true) → ∃ m, n ≤ m ∧ ∃ r, sched m = .handoff r)

/-- HOST's step for the word of an instruction. -/
def issue (i : Instr) : Input := .command (encode i)

/-- HOST running the loop of `STOP` (R80, R272), after `answers` so far: before each command the other agents take the steps of one turn,
then HOST issues the next command of the expansion, if there is one. A command is issued for each answer, and `TX_ENABLE 0` before
them, so the next one is number `answers.length + 1`. The result is the state and every answer. -/
def stopLoop : List (List Input) → List (BitVec 32) → State → State × List (BitVec 32)
  | [], answers, s => (s, answers)
  | turn :: rest, answers, s =>
    match (Pseudo.stop.expand answers)[answers.length + 1]? with
    | none => (s, answers)
    | some i =>
      let t := takeStep (issue i) (runOf turn s)
      stopLoop rest (answers ++ [t.respData]) t

/-- HOST running `STOP`: `TX_ENABLE 0`, then the loop, for as long as there are turns. -/
def stopRun (turns : List (List Input)) (s : State) : State × List (BitVec 32) :=
  stopLoop turns [] (takeStep (issue (.txEnable 0#32)) s)

/-- No step of HOST's is among these: the other agents' steps and the reset. -/
def otherAgents (xs : List Input) : Prop := ∀ x ∈ xs, ∀ w, x ≠ .command w

/-- The step is HOST's command `i`. -/
def issues (x : Input) (i : Instr) : Prop := ∃ w, x = .command w ∧ decode w = some i

/-- The steps that may write `CUR` or `ARM` (10_state.md section 1). -/
def writesChannelState (x : Input) : Prop :=
  x = .reset ∨ issues x .msgCommit ∨ ∃ idx arg, issues x (.chSet idx arg)

/-- A command word that is no `TX_ENABLE 0` (R204). -/
def keepsEnabled (w : CmdWord) : Prop := ∀ arg, decode w = some (.txEnable arg) → arg.getLsbD 0 = true

/-- One tick served in time (R275): the tick, then the start, then the handoff, with HOST's commands anywhere between. -/
structure ServedTick where
  beforeStart : List CmdWord
  beforeHandoff : List CmdWord
  afterHandoff : List CmdWord
  answer : Answer
  deriving DecidableEq, Repr

/-- The steps of a served tick. -/
def ServedTick.steps (r : ServedTick) : List Input :=
  .tick :: r.beforeStart.map .command ++ .start :: r.beforeHandoff.map .command
    ++ .handoff r.answer :: r.afterHandoff.map .command

/-- No command of a served tick disables transmission. -/
def ServedTick.staysEnabled (r : ServedTick) : Prop :=
  (∀ w ∈ r.beforeStart, keepsEnabled w) ∧ (∀ w ∈ r.beforeHandoff, keepsEnabled w) ∧
    ∀ w ∈ r.afterHandoff, keepsEnabled w

/-- The last value a message gives for a field code (R172). -/
def lastValue (code : Nat) (fields : List (Byte × Arg)) : Option Arg :=
  (fields.reverse.find? fun f => f.1.toNat == code).map Prod.snd

/-- The event of a field of a message (R173): one for a channel value that is clamped, none for any other field. -/
def clampEvent (field : Byte × Arg) : Option Event :=
  if field.1.toNat ≤ 15 ∧ field.2.toInt < 0 then some (.clamp field.1 field.2.toInt 0#11)
  else if field.1.toNat ≤ 15 ∧ 2047 < field.2.toInt then some (.clamp field.1 field.2.toInt 2047#11)
  else none

/-! ## What a command leaves -/

/-- The state after a command that ends OK and writes nothing but the response (R33). -/
def afterOk (data : BitVec 32) (s : State) : State := { s with respCode := 0x00#8, respData := data }

/-- The state after a command that fails (R234): the response, FAULT bits, one event, and nothing else. -/
def afterError (code : Byte) (faultBits : BitVec 32) (e : Contract) (s : State) : State :=
  { s with
    respCode := code
    respData := 0#32
    faultReg := s.faultReg ||| faultBits
    events := s.events ++ [.contract e] }

/-- The commands of R59 that write nothing but the response. -/
def readsOnly : Instr → Bool
  | .chGet _ | .armGet | .snapGet _ | .snapArmGet | .foutGet _ | .decGet _ | .decFlagsGet | .txfGet _
  | .statusGet | .faultGet => true
  | .nop | .chSet _ _ | .snapshot | .encode | .dinClear | .dinPush _ | .decode | .msgBegin | .msgField _ _
  | .msgCommit | .msgAbort | .txEnable _ => false

/-- The commands of R59 that give the same state when repeated. -/
def repeatable : Instr → Bool
  | .snapshot | .encode | .decode | .dinClear | .txEnable _ => true
  | .nop | .chGet _ | .chSet _ _ | .armGet | .snapGet _ | .snapArmGet | .foutGet _ | .dinPush _ | .decGet _
  | .decFlagsGet | .msgBegin | .msgField _ _ | .msgCommit | .msgAbort | .txfGet _ | .statusGet | .faultGet => false

/-- The words R72 to R76 call legal, by opcode number and field, written without the opcode table. -/
def legalWord (w : CmdWord) : Bool :=
  let arg := (w >>> 32).toNat
  let op := (w >>> 24).toNat % 256
  let idx := (w >>> 16).toNat % 256
  let rsv := w.toNat % 65536
  rsv == 0 &&
    (([0x00, 0x03, 0x04, 0x06, 0x08, 0x0A, 0x0C, 0x0E, 0x10, 0x12, 0x13, 0x1E, 0x1F].contains op && idx == 0 && arg == 0)
      || ([0x01, 0x05, 0x09, 0x0D, 0x19].contains op && arg == 0)
      || [0x02, 0x11].contains op
      || (op == 0x0B && idx == 0 && arg < 256)
      || (op == 0x18 && idx == 0 && arg < 2))

/-- A frame is the encoding of a ChannelState, told bit by bit (R52, R53, R104, R106): stream bit `11c + b` is bit `b` of channel `c`,
and stream bit `k` is bit `k mod 8` of frame byte `1 + (k div 8)`. -/
def FrameCarries (armBit : Fin 2) (f : Frame) (c : ChannelState) : Prop :=
  f[0] = 0x0F#8 ∧ f[24] = 0x00#8 ∧
  (∀ b, b < 8 → f[23].getLsbD b = (c.arm && b == armBit.val)) ∧
  ∀ (i b : Nat) (hi : i < 16) (hb : b < 11),
    (f[1 + (11 * i + b) / 8]'(by omega)).getLsbD ((11 * i + b) % 8) = c.ch[i].getLsbD b

/-! ## The invariant -/

/-- What every step keeps (R30, R26, R32, R33, R132, R190, R195, R230, R234, R238). -/
structure MachineInv (s : State) : Prop where
  /-- `FAULT[31:8]` read 0 (R32) -/
  reservedFaultBits : s.faultReg.extractLsb' 8 24 = 0#24
  /-- codes 0x08 to 0xFF are never produced (R230) -/
  respCodeLegal : s.respCode.toNat ≤ 7
  /-- the data of a failed command is 0 (R33) -/
  failedDataZero : s.respCode ≠ 0#8 → s.respData = 0#32
  /-- the fault of a failed command is recorded (R234) -/
  failedBitSet : s.respCode ≠ 0#8 → s.faultReg.getLsbD (s.respCode.toNat - 1) = true
  /-- a tick is pending only while transmission is enabled (R192, R200) -/
  pendingOnlyEnabled : s.tickPending = true → s.txEn = true
  /-- nothing is staged while no message is open (R168 to R171) -/
  closedNothingStaged : s.msgOpen = false → s.pmask = 0#16 ∧ s.parmValid = false
  /-- `DEC_ARM` is the arm bit of `DEC_FLAGS` (R124, R132) -/
  decArmIsFlag : s.decArm = s.decFlags.getLsbD Config.armFlagBit.val
  /-- the frame being handed off is a whole frame (R194) -/
  sendingWholeFrame : s.txState = .transmitting → ∃ c, s.txbuf = encodeFrame Config.armFlagBit c
  /-- every frame on the wire is a whole frame (R195, R196) -/
  wireWholeFrames : ∀ f ∈ s.wire, ∃ c, f = encodeFrame Config.armFlagBit c
  /-- every recorded contract violation was reported (R234) -/
  faultBitsReported : ∀ k, k < 7 → s.faultReg.getLsbD k = true →
    ∃ e, Event.contract e ∈ s.events ∧ e.code.toNat = k + 1
  /-- a recorded overrun was reported (R192) -/
  overrunReported : s.faultReg.getLsbD 7 = true → Event.tickOverrun ∈ s.events

/-! ## What no step can observe -/

/-- The state with every stale register cleared: `PVAL[i]` with `PMASK[i] = 0`, `PARM` with `PARM_VALID = 0`, `DIN[j]` with
`j ≥ DIN_LEN` (93_implementation_defined.md items 26 and 27). -/
def hideStale (s : State) : State :=
  { s with
    pval := mergeStaged s.pmask s.pval (Vector.replicate 16 0#11)
    parm := s.parmValid && s.parm
    din := Vector.ofFn fun j => if j.val < s.dinLen.toNat then s.din[j] else 0x00#8 }

end Sys2Proof.Machine
end

