-- ==== Sys2Proof/Certificates/Slice0/Obligations.lean ====
section
/-!
DEFINITION. The statements about DDC for the provers. Each docstring names the rules it formalises. A result statement concludes that
`exec` answers the next state the rule gives, for every operand and every state, so it is also the command's completion statement and
its frame: every field the equation does not name keeps its value. It also says which words of the rule's encoding are the command.
-/

open Sys2Proof Sys2Proof.Machine

/-! ## Encoding -/

/-- Decoding the word of a well-formed instruction gives it back (R74, R75, R77). -/
def Obligations.DecodeOfEncodeIsTheInstruction : Prop :=
  ∀ i : Instr, i.wellFormed = true → decode (encode i) = some i

/-- A word the decoder accepts is the word of the instruction it reads, and that instruction is well-formed: no bit is dropped and
no two words mean the same (R73 to R77). -/
def Obligations.EncodeOfDecodeIsTheWord : Prop :=
  ∀ (w : CmdWord) (i : Instr), decode w = some i → encode i = w ∧ i.wellFormed = true

/-- A word selects a row exactly by `(w & mask) = match`, selects at most one row, and decodes to that row's command (R75). -/
def Obligations.DecoderSelectsTheMatchingRow : Prop :=
  ∀ (w : CmdWord) (row : OpcodeRow), row ∈ opcodeTable → w &&& row.form.mask = row.pattern →
    decode w = some (row.mnemonic.command (idxField w) (argField w)) ∧
      ∀ other ∈ opcodeTable, w &&& other.form.mask = other.pattern → other = row

/-- The legal words are those of R72 to R76, told by opcode number and field and not by the table. -/
def Obligations.DecoderAcceptsExactlyTheLegalWords : Prop :=
  ∀ w : CmdWord, (decode w).isSome = legalWord w

/-- A reserved opcode or a nonzero fixed-zero bit takes the error path with IllegalCommand and nothing else happens; the all-zero
word is `NOP` (R73, R76). -/
def Obligations.IllegalWordTakesTheErrorPath : Prop :=
  (∀ (s : State) (w : CmdWord) (rest : List Input), s.inputs = .command w :: rest → legalWord w = false →
    step s = .next (afterError 0x07#8 0x40#32 (.illegalCommand w) { s with inputs := rest, pc := s.pc + 1 })) ∧
  decode 0#64 = some .nop

/-- Words written out from R75 decode to the commands they stand for, one per family and form. -/
def Obligations.WrittenWordsDecode : Prop :=
  decode 0x0000000000000000#64 = some .nop ∧
  decode 0x0000000001100000#64 = some (.chGet 16#8) ∧
  decode 0xFFFFFFFF02030000#64 = some (.chSet 3#8 0xFFFFFFFF#32) ∧
  decode 0x0000000004000000#64 = some .snapshot ∧
  decode 0x000000FF0B000000#64 = some (.dinPush 0xFF#32) ∧
  decode 0x0000138811000000#64 = some (.msgField 0#8 5000#32) ∧
  decode 0x0000000118000000#64 = some (.txEnable 1#32) ∧
  decode 0x000000001E000000#64 = some .statusGet

/-! ## The step -/

/-- A step whose next input is a command word runs the decoded command, with the input taken and HOST's position advanced
(R233, R35). -/
def Obligations.StepRunsTheDecodedCommand : Prop :=
  ∀ (s : State) (w : CmdWord) (rest : List Input) (i : Instr),
    s.inputs = .command w :: rest → decode w = some i →
      step s = exec i { s with inputs := rest, pc := s.pc + 1 }

/-- No error stops DDC: every step answers a next state (R237). -/
def Obligations.EveryStepAnswersNext : Prop := ∀ s : State, ∃ t : State, step s = .next t

/-- The model's own reading (log 1, log 2): running the machine for as many steps as there are inputs takes the inputs' steps in
order, and with none left nothing changes (R60). -/
def Obligations.MachineRunsItsInputsInOrder : Prop :=
  (∀ s : State, Sys2Proof.core.run s.inputs.length s = .next (runOf s.inputs (withInputs [] s))) ∧
  ∀ s : State, s.inputs = [] → step s = .next s

/-- HOST's position advances by one for every command, legal or not, and for nothing else, without wrap-around (R35). -/
def Obligations.PositionCountsCommands : Prop :=
  ∀ (xs : List Input) (s : State),
    (runOf xs s).pc = s.pc + xs.countP fun x => match x with | .command _ => true | _ => false

/-! ## ChannelState commands -/

/-- `CH_GET`, `SNAP_GET`, `DEC_GET`: the channel, zero-extended, or IndexOutOfRange (R141, R149, R130). -/
def Obligations.ChannelReadsReturnTheChannel : Prop :=
  (∀ idx : Byte, decode (wordOf 0#32 0x01#8 idx 0#16) = some (.chGet idx) ∧
    decode (wordOf 0#32 0x05#8 idx 0#16) = some (.snapGet idx) ∧ decode (wordOf 0#32 0x0D#8 idx 0#16) = some (.decGet idx)) ∧
  ∀ (idx : Byte) (s : State),
    (∀ h : idx.toNat < 16,
      exec (.chGet idx) s = .next (afterOk (BitVec.ofNat 32 (s.cur[idx.toNat]'h).toNat) s) ∧
      exec (.snapGet idx) s = .next (afterOk (BitVec.ofNat 32 (s.snap[idx.toNat]'h).toNat) s) ∧
      exec (.decGet idx) s = .next (afterOk (BitVec.ofNat 32 (s.dec[idx.toNat]'h).toNat) s)) ∧
    (15 < idx.toNat →
      exec (.chGet idx) s = .next (afterError 0x01#8 0x01#32 (.indexOutOfRange idx) s) ∧
      exec (.snapGet idx) s = .next (afterError 0x01#8 0x01#32 (.indexOutOfRange idx) s) ∧
      exec (.decGet idx) s = .next (afterError 0x01#8 0x01#32 (.indexOutOfRange idx) s))

/-- `FOUT_GET`, `TXF_GET`: the byte, zero-extended, or IndexOutOfRange (R112, R202). -/
def Obligations.FrameReadsReturnTheByte : Prop :=
  (∀ idx : Byte, decode (wordOf 0#32 0x09#8 idx 0#16) = some (.foutGet idx) ∧
    decode (wordOf 0#32 0x19#8 idx 0#16) = some (.txfGet idx)) ∧
  ∀ (idx : Byte) (s : State),
    (∀ h : idx.toNat < 25,
      exec (.foutGet idx) s = .next (afterOk (BitVec.ofNat 32 (s.fout[idx.toNat]'h).toNat) s) ∧
      exec (.txfGet idx) s = .next (afterOk (BitVec.ofNat 32 (s.txbuf[idx.toNat]'h).toNat) s)) ∧
    (24 < idx.toNat →
      exec (.foutGet idx) s = .next (afterError 0x01#8 0x01#32 (.indexOutOfRange idx) s) ∧
      exec (.txfGet idx) s = .next (afterError 0x01#8 0x01#32 (.indexOutOfRange idx) s))

/-- `CH_SET`: the index is checked first, then the value, which is rejected and never clamped; else exactly one channel takes the
value (R143). -/
def Obligations.ChSetWritesOrRejects : Prop :=
  (∀ (idx : Byte) (arg : Arg), decode (wordOf arg 0x02#8 idx 0#16) = some (.chSet idx arg)) ∧
  ∀ (idx : Byte) (arg : Arg) (s : State),
    (15 < idx.toNat →
      exec (.chSet idx arg) s = .next (afterError 0x01#8 0x01#32 (.indexOutOfRange idx) s)) ∧
    (idx.toNat ≤ 15 → arg.toInt < 0 ∨ 2047 < arg.toInt →
      exec (.chSet idx arg) s = .next (afterError 0x02#8 0x02#32 (.invalidChannelValue arg.toInt) s)) ∧
    (idx.toNat ≤ 15 → 0 ≤ arg.toInt → arg.toInt ≤ 2047 →
      ∃ t, exec (.chSet idx arg) s = .next t ∧ t = afterOk 0#32 { s with cur := t.cur } ∧
        ∀ (j : Nat) (h : j < 16),
          if j = idx.toNat then (t.cur[j].toNat : Int) = arg.toInt else t.cur[j] = s.cur[j])

/-- `ARM_GET` and `SNAP_ARM_GET`: the flag in bit 0 (R145, R151). -/
def Obligations.ArmReadsReturnTheFlag : Prop :=
  decode 0x0000000003000000#64 = some .armGet ∧ decode 0x0000000006000000#64 = some .snapArmGet ∧
  ∀ s : State,
    exec .armGet s = .next (afterOk (if s.arm = true then 1#32 else 0#32) s) ∧
    exec .snapArmGet s = .next (afterOk (if s.snapArm = true then 1#32 else 0#32) s)

/-- `SNAPSHOT`: all sixteen channels and the arm flag, copied in one step (R147). -/
def Obligations.SnapshotCopiesTheWholeChannelState : Prop :=
  decode 0x0000000004000000#64 = some .snapshot ∧
  ∀ s : State, exec .snapshot s = .next (afterOk 0#32 { s with snap := s.cur, snapArm := s.arm })

/-! ## FrameCodec commands -/

/-- `ENCODE`: `FOUT` is the frame of the host snapshot, never of `CUR` (R110, R103). -/
def Obligations.EncodeWritesTheFrameOfTheSnapshot : Prop :=
  decode 0x0000000008000000#64 = some .encode ∧
  ∀ s : State, ∃ t, exec .encode s = .next t ∧ t = afterOk 0#32 { s with fout := t.fout } ∧
    FrameCarries Config.armFlagBit t.fout ⟨s.snap, s.snapArm⟩

/-- `DIN_CLEAR`: the count is 0, the bytes are not erased (R120). -/
def Obligations.DinClearEmptiesTheCount : Prop :=
  decode 0x000000000A000000#64 = some .dinClear ∧
  ∀ s : State, exec .dinClear s = .next (afterOk 0#32 { s with dinLen := 0#8 })

/-- `DIN_PUSH`: the byte goes to `DIN[DIN_LEN]` while `DIN_LEN < 25`, and the count goes up to 255 and stays there (R122). An argument of
256 or more has no word; that `exec` acts on its low byte is the model's choice (log 18). -/
def Obligations.DinPushAppendsAndCounts : Prop :=
  (∀ arg : Arg, decode (wordOf arg 0x0B#8 0#8 0#16) = if arg.toNat < 256 then some (.dinPush arg) else none) ∧
  ∀ (arg : Arg) (s : State), ∃ t, exec (.dinPush arg) s = .next t ∧
    t = afterOk 0#32 { s with din := t.din, dinLen := t.dinLen } ∧
    t.dinLen.toNat = min (s.dinLen.toNat + 1) 255 ∧
    ∀ (j : Nat) (h : j < 25), t.din[j] = if j = s.dinLen.toNat then arg.extractLsb' 0 8 else s.din[j]

/-- `DECODE`: BadLength, then BadHeader, then BadFooter, else the channels, the arm flag and the flags byte of `DIN`, bit by bit
(R126, R125, R124). -/
def Obligations.DecodeChecksThenUnpacks : Prop :=
  decode 0x000000000C000000#64 = some .decode ∧
  ∀ s : State,
    (s.dinLen ≠ 25#8 → exec .decode s = .next (afterError 0x05#8 0x10#32 (.badLength s.dinLen) s)) ∧
    (s.dinLen = 25#8 → s.din[0] ≠ 0x0F#8 →
      exec .decode s = .next (afterError 0x03#8 0x04#32 (.badHeader s.din[0]) s)) ∧
    (s.dinLen = 25#8 → s.din[0] = 0x0F#8 → s.din[24] ≠ 0x00#8 →
      exec .decode s = .next (afterError 0x04#8 0x08#32 (.badFooter s.din[24]) s)) ∧
    (s.dinLen = 25#8 → s.din[0] = 0x0F#8 → s.din[24] = 0x00#8 →
      ∃ t, exec .decode s = .next t ∧
        t = afterOk 0#32 { s with
          dec := t.dec, decArm := s.din[23].getLsbD Config.armFlagBit.val, decFlags := s.din[23] } ∧
        ∀ (i b : Nat) (hi : i < 16) (hb : b < 11),
          t.dec[i].getLsbD b = (s.din[1 + (11 * i + b) / 8]'(by omega)).getLsbD ((11 * i + b) % 8))

/-- `DEC_FLAGS_GET`: bit 8 is `DEC_ARM`, bits 7:0 are `DEC_FLAGS` (R132). -/
def Obligations.DecFlagsGetReturnsArmAndFlags : Prop :=
  decode 0x000000000E000000#64 = some .decFlagsGet ∧
  ∀ s : State, exec .decFlagsGet s =
    .next (afterOk (BitVec.ofNat 32 ((if s.decArm = true then 256 else 0) + s.decFlags.toNat)) s)

/-! ## CommandIngestor commands -/

/-- `MSG_BEGIN` (R168). -/
def Obligations.MsgBeginOpensOrFails : Prop :=
  decode 0x0000000010000000#64 = some .msgBegin ∧
  ∀ s : State,
    (s.msgOpen = true →
      exec .msgBegin s = .next (afterError 0x06#8 0x20#32 (.sequenceError .msgBegin) s)) ∧
    (s.msgOpen = false →
      exec .msgBegin s = .next (afterOk 0#32 { s with msgOpen := true, pmask := 0#16, parmValid := false }))

/-- `MSG_FIELD` (R169, R166, R167, R163): a channel value is clamped to the nearest bound and staged, the clamp reported twice; `armed`
stages 1 for every nonzero value; an unknown code is ignored. -/
def Obligations.MsgFieldStagesOneField : Prop :=
  (∀ (idx : Byte) (arg : Arg), decode (wordOf arg 0x11#8 idx 0#16) = some (.msgField idx arg)) ∧
  ∀ (idx : Byte) (arg : Arg) (s : State),
    (s.msgOpen = false →
      exec (.msgField idx arg) s = .next (afterError 0x06#8 0x20#32 (.sequenceError .msgField) s)) ∧
    (s.msgOpen = true → idx.toNat ≤ 15 →
      ∃ t, exec (.msgField idx arg) s = .next t ∧
        t = { s with
          pval := t.pval
          pmask := t.pmask
          respCode := 0x00#8
          respData := if 0 ≤ arg.toInt ∧ arg.toInt ≤ 2047 then 0#32 else 1#32
          events := if 0 ≤ arg.toInt ∧ arg.toInt ≤ 2047 then s.events
            else s.events ++ [.clamp idx arg.toInt (if arg.toInt < 0 then 0#11 else 2047#11)] } ∧
        (∀ (j : Nat) (h : j < 16),
          if j = idx.toNat then (t.pval[j].toNat : Int) = min (max arg.toInt 0) 2047
          else t.pval[j] = s.pval[j]) ∧
        ∀ j, j < 16 → t.pmask.getLsbD j = (s.pmask.getLsbD j || j == idx.toNat)) ∧
    (s.msgOpen = true → idx.toNat = 0x10 →
      exec (.msgField idx arg) s =
        .next (afterOk 0#32 { s with parm := decide (arg.toInt ≠ 0), parmValid := true })) ∧
    (s.msgOpen = true → 0x11 ≤ idx.toNat → exec (.msgField idx arg) s = .next (afterOk 2#32 s))

/-- `MSG_COMMIT`: every staged update in one step, nothing else touched (R170, R164). -/
def Obligations.MsgCommitAppliesEveryStagedField : Prop :=
  decode 0x0000000012000000#64 = some .msgCommit ∧
  ∀ s : State,
    (s.msgOpen = false →
      exec .msgCommit s = .next (afterError 0x06#8 0x20#32 (.sequenceError .msgCommit) s)) ∧
    (s.msgOpen = true →
      ∃ t, exec .msgCommit s = .next t ∧
        t = afterOk 0#32 { s with
          cur := t.cur
          arm := if s.parmValid = true then s.parm else s.arm
          msgOpen := false
          pmask := 0#16
          parmValid := false } ∧
        ∀ (i : Nat) (h : i < 16), t.cur[i] = if s.pmask.getLsbD i = true then s.pval[i] else s.cur[i])

/-- `MSG_ABORT`: the message is discarded, `CUR` and `ARM` untouched, no FAULT bit set (R171). -/
def Obligations.MsgAbortDiscardsTheMessage : Prop :=
  decode 0x0000000013000000#64 = some .msgAbort ∧
  ∀ s : State, exec .msgAbort s =
    .next (afterOk 0#32 { s with
      msgOpen := false, pmask := 0#16, parmValid := false, events := s.events ++ [.parseFailure] })

/-! ## TransmitScheduler -/

/-- `TX_ENABLE` (R200): disabling drops a pending tick and lets a handoff in progress finish. An argument of 2 or more has no word; that
`exec` acts on its bit 0 is the model's choice (log 18). -/
def Obligations.TxEnableSetsTheEnable : Prop :=
  (∀ arg : Arg, decode (wordOf arg 0x18#8 0#8 0#16) = if arg.toNat < 2 then some (.txEnable arg) else none) ∧
  ∀ (arg : Arg) (s : State),
    exec (.txEnable arg) s = .next (afterOk 0#32 { s with
      txEn := arg.getLsbD 0
      tickPending := if arg.getLsbD 0 = true then s.tickPending else false })

/-- The tick step: ignored while disabled, an overrun while a tick is pending, else latched (R192). -/
def Obligations.TickLatchesOrOverruns : Prop :=
  ∀ (s : State) (rest : List Input), s.inputs = .tick :: rest →
    step s = .next (
      if s.txEn = false then { s with inputs := rest }
      else if s.tickPending = true then
        { s with inputs := rest, faultReg := s.faultReg ||| 0x80#32, events := s.events ++ [.tickOverrun] }
      else { s with inputs := rest, tickPending := true })

/-- The start step, where enabled: the pending tick is served and `TXBUF` is the frame of the live ChannelState, whatever message is
open (R194). -/
def Obligations.StartEncodesTheLiveChannelState : Prop :=
  ∀ (s : State) (rest : List Input), s.inputs = .start :: rest →
    s.txState = .idle → s.tickPending = true → s.txEn = true →
    ∃ t, step s = .next t ∧
      t = { s with inputs := rest, tickPending := false, txState := .transmitting, txbuf := t.txbuf } ∧
      FrameCarries Config.armFlagBit t.txbuf ⟨s.cur, s.arm⟩

/-- The handoff step, where enabled: the frame reaches the wire exactly when the transport answers Ok, a failure is one event and
nothing more, and TXE is Idle either way (R196, R198). -/
def Obligations.HandoffDeliversOrReports : Prop :=
  ∀ (s : State) (r : Answer) (rest : List Input), s.inputs = .handoff r :: rest → s.txState = .transmitting →
    step s = .next (match r with
      | .ok => { s with inputs := rest, txState := .idle, wire := s.wire ++ [s.txbuf] }
      | .fail => { s with inputs := rest, txState := .idle, events := s.events ++ [.transportFailure] })

/-- The model's own choice (log 3): a start or handoff that is not enabled does not happen, only its turn passes. -/
def Obligations.DisabledEngineStepChangesNothing : Prop :=
  ∀ (s : State) (rest : List Input),
    (s.inputs = .start :: rest → ¬(s.txState = .idle ∧ s.tickPending = true ∧ s.txEn = true) →
      step s = .next { s with inputs := rest }) ∧
    ∀ r, s.inputs = .handoff r :: rest → s.txState = .idle → step s = .next { s with inputs := rest }

/-! ## Control and status, reset -/

/-- `NOP` and `FAULT_GET` (R221, R225). -/
def Obligations.NopAndFaultGetOnlyRespond : Prop :=
  decode 0x0000000000000000#64 = some .nop ∧ decode 0x000000001F000000#64 = some .faultGet ∧
  ∀ s : State, exec .nop s = .next (afterOk 0#32 s) ∧ exec .faultGet s = .next (afterOk s.faultReg s)

/-- `STATUS_GET`: the STATUS word field by field (R223, R34). -/
def Obligations.StatusGetReturnsTheLayout : Prop :=
  decode 0x000000001E000000#64 = some .statusGet ∧
  ∀ s : State, ∃ w : BitVec 32, exec .statusGet s = .next (afterOk w s) ∧
    w.getLsbD 0 = s.txEn ∧ w.getLsbD 1 = (s.txState == .transmitting) ∧ w.getLsbD 2 = s.tickPending ∧
    w.getLsbD 3 = s.msgOpen ∧ w.getLsbD 4 = s.arm ∧ w.getLsbD 5 = s.snapArm ∧ w.getLsbD 6 = s.decArm ∧
    w.getLsbD 7 = s.parmValid ∧ w.extractLsb' 8 8 = s.dinLen ∧ w.extractLsb' 16 16 = s.pmask

/-- The reset values of R38, with `RESET_CH` named as R261 asks. Its value 992 is the spec's own choice, from general knowledge (G1), and
the model's constant (log 7). -/
def Obligations.ResetLeavesTheDocumentedValues : Prop :=
  State.reset.cur = Config.resetCh ∧ Config.resetCh = Vector.replicate 16 992#11 ∧
  State.reset.arm = false ∧ State.reset.snap = Vector.replicate 16 0#11 ∧ State.reset.snapArm = false ∧
  State.reset.msgOpen = false ∧ State.reset.pmask = 0#16 ∧ State.reset.parmValid = false ∧
  State.reset.parm = false ∧ State.reset.pval = Vector.replicate 16 0#11 ∧
  State.reset.fout = Vector.replicate 25 0#8 ∧ State.reset.din = Vector.replicate 25 0#8 ∧
  State.reset.dinLen = 0#8 ∧ State.reset.dec = Vector.replicate 16 0#11 ∧ State.reset.decArm = false ∧
  State.reset.decFlags = 0#8 ∧ State.reset.txEn = false ∧ State.reset.txState = .idle ∧
  State.reset.tickPending = false ∧ State.reset.txbuf = Vector.replicate 25 0#8 ∧
  State.reset.faultReg = 0#32 ∧ State.reset.respCode = 0#8 ∧ State.reset.respData = 0#32

/-- The reset input sets every element at once, so no frame of a handoff in progress is output, and retracts no frame or event already
output (R260). That HOST's position stays is the model's choice (log 4). -/
def Obligations.ResetInputKeepsOnlyTheOutputs : Prop :=
  ∀ (s : State) (rest : List Input), s.inputs = .reset :: rest →
    step s = .next { State.reset with pc := s.pc, wire := s.wire, events := s.events, inputs := rest }

/-! ## The codec's laws -/

/-- `unpack_le` is the inverse of `pack_le` on every valid list (R101). -/
def Obligations.UnpackInvertsPack : Prop :=
  ∀ pairs : List (Nat × Nat), (∀ p ∈ pairs, p.1 < 2 ^ p.2) →
    unpackLe (packLe pairs) (pairs.map Prod.snd) = pairs.map Prod.fst

/-- `pack_le` gives `ceil(W/8)` bytes; stream bit `off_k + b` is bit `b` of `v_k`, and the bits from `W` up are 0 (R100). -/
def Obligations.PackPlacesEveryBit : Prop :=
  ∀ pairs : List (Nat × Nat), (∀ p ∈ pairs, p.1 < 2 ^ p.2) →
    (packLe pairs).length = ((pairs.map Prod.snd).sum + 7) / 8 ∧
    (∀ (k b : Nat) (hk : k < pairs.length), b < (pairs[k]).2 →
      ((packLe pairs).getD ((((pairs.take k).map Prod.snd).sum + b) / 8) 0#8).getLsbD
          ((((pairs.take k).map Prod.snd).sum + b) % 8) = (pairs[k]).1.testBit b) ∧
    ∀ t, (pairs.map Prod.snd).sum ≤ t → ((packLe pairs).getD (t / 8) 0#8).getLsbD (t % 8) = false

/-- `encode` for both places of the arm bit: header and footer (R108), flags byte (R104), and every channel bit at its place
(R53, R102, R103). -/
def Obligations.EncodedFrameCarriesEveryBit : Prop :=
  ∀ (armBit : Fin 2) (c : ChannelState), FrameCarries armBit (encodeFrame armBit c) c

/-- Round trip for both places of the arm bit; a decodable frame re-encodes to itself exactly when its flags byte is `flags(A)` for
some `A` (R128). -/
def Obligations.FrameRoundTrip : Prop :=
  (∀ (armBit : Fin 2) (c : ChannelState),
    decodeFrame armBit (encodeFrame armBit c) 25#8 = .decoded c (flagsByte armBit c.arm)) ∧
  ∀ (armBit : Fin 2) (f : Frame) (c : ChannelState) (fl : Byte),
    decodeFrame armBit f 25#8 = .decoded c fl → (encodeFrame armBit c = f ↔ ∃ a, fl = flagsByte armBit a)

/-- A frame pushed byte by byte decodes to the ChannelState it was encoded from, whatever the machine held before (R80, R122, R126,
R128). -/
def Obligations.LoadedFrameDecodesToItsChannelState : Prop :=
  ∀ (s : State) (c : ChannelState), ∃ t,
    runOf (((Pseudo.loadFrame (encodeFrame Config.armFlagBit c).toList).expand [] ++ [Instr.decode]).map issue) s = t ∧
    t = afterOk 0#32 { s with
      pc := s.pc + 27
      din := encodeFrame Config.armFlagBit c
      dinLen := 25#8
      dec := c.ch
      decArm := c.arm
      decFlags := flagsByte Config.armFlagBit c.arm }

/-- After `DIN_CLEAR`, `DIN` holds the first 25 bytes pushed and `DIN_LEN` counts every push up to 255 (R28, R122, R273). -/
def Obligations.PushedBytesAreKeptInOrder : Prop :=
  ∀ (s : State) (bytes : List Byte), ∃ t,
    runOf (((Pseudo.loadFrame bytes).expand []).map issue) s = t ∧
    t.dinLen.toNat = min bytes.length 255 ∧
    ∀ (j : Nat) (h : j < 25), t.din[j] = if hb : j < bytes.length then bytes[j] else s.din[j]

/-! ## Messages -/

/-- A whole message in one atomic publication: each channel takes the last value the message gives it, clamped, or keeps its own; the arm
flag likewise; all else but the staging, the response, HOST's position and the clamp events is untouched (R80, R164, R166, R167, R170,
R172, R174). -/
def Obligations.AppliedMessagePublishesItsLastValues : Prop :=
  ∀ (s : State) (fields : List (Byte × Arg)), s.msgOpen = false → ∃ t,
    runOf (((Pseudo.apply fields).expand []).map issue) s = t ∧
    t = afterOk 0#32 { s with
      cur := t.cur
      arm := t.arm
      pmask := 0#16
      parmValid := false
      pval := t.pval
      parm := t.parm
      pc := s.pc + fields.length + 2
      events := s.events ++ fields.filterMap clampEvent } ∧
    (∀ (i : Nat) (h : i < 16),
      match lastValue i fields with
      | none => t.cur[i] = s.cur[i]
      | some v => (t.cur[i].toNat : Int) = min (max v.toInt 0) 2047) ∧
    match lastValue 0x10 fields with
    | none => t.arm = s.arm
    | some v => t.arm = decide (v.toInt ≠ 0)

/-- A message that fails to parse, after any of its fields, leaves the ChannelState bit for bit unchanged and no message open
(R165, R171, R174). -/
def Obligations.AbortedMessageLeavesChannelState : Prop :=
  ∀ (s : State) (fields : List (Byte × Arg)), ∃ t,
    runOf ((Instr.msgBegin :: fields.map (fun f : Byte × Arg => Instr.msgField f.1 f.2) ++ [Instr.msgAbort]).map issue) s = t ∧
    t.cur = s.cur ∧ t.arm = s.arm ∧ t.msgOpen = false ∧ t.pmask = 0#16 ∧ t.parmValid = false ∧
    Event.parseFailure ∈ t.events

/-- The last writer of a channel wins: a commit overwrites an earlier `CH_SET` of a staged channel, and a `CH_SET` after the commit
overwrites the committed value (R63). -/
def Obligations.LastWriterOfAChannelWins : Prop :=
  ∀ (s : State) (idx : Byte) (arg : Arg) (h : idx.toNat < 16),
    s.msgOpen = true → s.pmask.getLsbD idx.toNat = true → 0 ≤ arg.toInt → arg.toInt ≤ 2047 →
    (runOf [issue (.chSet idx arg), issue .msgCommit] s).cur[idx.toNat] = s.pval[idx.toNat] ∧
    ((runOf [issue .msgCommit, issue (.chSet idx arg)] s).cur[idx.toNat].toNat : Int) = arg.toInt

/-- A message left open stays open and is never applied, and every `MSG_BEGIN` fails, until a commit, an abort or a reset: `ARM` keeps
its value, and so does every channel that no `CH_SET` names (R271, R21, R23). -/
def Obligations.OpenMessageStaysOpen : Prop :=
  ∀ (s : State) (xs : List Input), s.msgOpen = true →
    (∀ x ∈ xs, x ≠ .reset ∧ ¬issues x .msgCommit ∧ ¬issues x .msgAbort) →
    (runOf xs s).msgOpen = true ∧ (runOf xs s).arm = s.arm ∧
    (∀ (i : Nat) (h : i < 16), (∀ x ∈ xs, ∀ k a, issues x (.chSet k a) → k.toNat ≠ i) → (runOf xs s).cur[i] = s.cur[i]) ∧
    (runOf (xs ++ [issue .msgBegin]) s).respCode = 0x06#8

/-! ## Whole-machine rules -/

/-- The invariant is kept by every step from every state that meets it. -/
def Obligations.EveryStepKeepsTheInvariant : Prop :=
  ∀ s t : State, MachineInv s → step s = .next t → MachineInv t

/-- The reset state meets the invariant. -/
def Obligations.ResetMeetsTheInvariant : Prop := MachineInv State.reset

/-- Every element is written only by the steps the summary table names (R20, 10_state.md section 1); which commands and ticks write FAULT
is `FaultBitsAreStickyAndReported`. -/
def Obligations.EachElementHasOnlyItsWriters : Prop :=
  ∀ (x : Input) (s t : State), t = takeStep x s → x ≠ .reset →
    (t.cur ≠ s.cur → issues x .msgCommit ∨ ∃ i a, issues x (.chSet i a)) ∧
    (t.arm ≠ s.arm → issues x .msgCommit ∧ s.parmValid = true) ∧
    (t.snap ≠ s.snap ∨ t.snapArm ≠ s.snapArm → issues x .snapshot) ∧
    (t.msgOpen ≠ s.msgOpen → issues x .msgBegin ∨ issues x .msgCommit ∨ issues x .msgAbort) ∧
    (t.pmask ≠ s.pmask ∨ t.parmValid ≠ s.parmValid →
      issues x .msgBegin ∨ issues x .msgCommit ∨ issues x .msgAbort ∨ ∃ i a, issues x (.msgField i a)) ∧
    (t.pval ≠ s.pval ∨ t.parm ≠ s.parm → ∃ i a, issues x (.msgField i a)) ∧
    (t.fout ≠ s.fout → issues x .encode) ∧
    (t.din ≠ s.din → ∃ a, issues x (.dinPush a)) ∧
    (t.dinLen ≠ s.dinLen → issues x .dinClear ∨ ∃ a, issues x (.dinPush a)) ∧
    (t.dec ≠ s.dec ∨ t.decArm ≠ s.decArm ∨ t.decFlags ≠ s.decFlags → issues x .decode) ∧
    (t.txEn ≠ s.txEn → ∃ a, issues x (.txEnable a)) ∧
    (t.txState ≠ s.txState → x = .start ∨ ∃ r, x = .handoff r) ∧
    (t.tickPending ≠ s.tickPending → x = .tick ∨ x = .start ∨ ∃ a, issues x (.txEnable a)) ∧
    (t.txbuf ≠ s.txbuf → x = .start) ∧
    (t.faultReg ≠ s.faultReg → x = .tick ∨ ∃ w, x = .command w) ∧
    (t.respCode ≠ s.respCode ∨ t.respData ≠ s.respData → ∃ w, x = .command w)

/-- FAULT bits are sticky: after a step a bit is set exactly when it was set and the step was no reset, or the step reported the
event that sets it (R32). -/
def Obligations.FaultBitsAreStickyAndReported : Prop :=
  ∀ (x : Input) (s t : State), t = takeStep x s →
    ∀ k, k < 32 → (t.faultReg.getLsbD k = true ↔
      (x ≠ .reset ∧ s.faultReg.getLsbD k = true) ∨
      (k < 7 ∧ ∃ e, Event.contract e ∈ t.events.drop s.events.length ∧ e.code.toNat = k + 1) ∨
      (k = 7 ∧ Event.tickOverrun ∈ t.events.drop s.events.length))

/-- A failing command is precise: nothing changes but the response, one FAULT bit, one event and HOST's position (R234). -/
def Obligations.ErrorsArePrecise : Prop :=
  ∀ (w : CmdWord) (s t : State), hostStep w s = .next t → t.respCode ≠ 0x00#8 →
    ∃ e : Contract, t = afterError e.code (1#32 <<< (e.code.toNat - 1)) e { s with pc := s.pc + 1 }

/-- The outputs only grow: at most one event a step, and a frame only by a handoff in progress that the transport accepts (R39, R196,
R238). -/
def Obligations.OutputsOnlyGrow : Prop :=
  ∀ (x : Input) (s t : State), t = takeStep x s →
    (∃ es, t.events = s.events ++ es ∧ es.length ≤ 1) ∧
    (t.wire = s.wire ∨ (x = .handoff .ok ∧ s.txState = .transmitting ∧ t.wire = s.wire ++ [s.txbuf]))

/-- Side effects of commands (R59): the read commands write nothing but the response unless they fail, and give the same response
again; `SNAPSHOT`, `ENCODE`, `DECODE`, `DIN_CLEAR` and `TX_ENABLE` give the same state again (a failing `DECODE` only reports its event
again); a `DIN_PUSH` advances `DIN_LEN`; a second `MSG_BEGIN` fails. -/
def Obligations.RepeatedCommandsBehaveAsStated : Prop :=
  (∀ (i : Instr) (s : State), readsOnly i = true → ∃ t u, exec i s = .next t ∧ exec i t = .next u ∧
    (t.respCode = 0x00#8 → t = { s with respCode := t.respCode, respData := t.respData }) ∧
    (t.respCode ≠ 0x00#8 →
      t = { s with respCode := t.respCode, respData := t.respData, faultReg := t.faultReg, events := t.events }) ∧
    u.respCode = t.respCode ∧ u.respData = t.respData) ∧
  (∀ (i : Instr) (s : State), repeatable i = true →
    ∃ t u, exec i s = .next t ∧ exec i t = .next u ∧ u = { t with events := u.events } ∧
      (t.respCode = 0x00#8 → u = t)) ∧
  (∀ (arg : Arg) (s : State), s.dinLen.toNat < 255 →
    ∃ t, exec (.dinPush arg) s = .next t ∧ t.dinLen.toNat = s.dinLen.toNat + 1) ∧
  ∀ s : State, ∃ t u, exec .msgBegin s = .next t ∧ exec .msgBegin t = .next u ∧ u.respCode = 0x06#8

/-- Staged updates are invisible: no step but `MSG_COMMIT` reads `PVAL` or `PARM` (R62). -/
def Obligations.OnlyCommitReadsTheStagedValues : Prop :=
  ∀ (x : Input) (s : State) (p : Channels) (a : Bool), ¬issues x .msgCommit →
    ∃ p' a', takeStep x { s with pval := p, parm := a } = { takeStep x s with pval := p', parm := a' }

/-- No step can observe a stale register: two states that differ only in stale staging and stale `DIN` bytes go on differing only
there (R120, R168; 93_implementation_defined.md items 26 and 27). -/
def Obligations.StaleRegistersAreUnobservable : Prop :=
  ∀ (x : Input) (s t : State), hideStale s = hideStale t →
    hideStale (takeStep x s) = hideStale (takeStep x t)

/-- No tearing: a snapshot or a start step before the commit sees none of the message's updates, and one after it sees all of them,
unless a later step overwrote them (R61, R58). -/
def Obligations.MessageIsSeenWholeOrNotAtAll : Prop :=
  ∀ (s : State) (xs : List Input), s.msgOpen = true → (∀ x ∈ xs, ¬writesChannelState x) →
    (published (runOf xs s) = published s ∧ hostSnapshot (runOf (xs ++ [issue .snapshot]) s) = published s ∧
      (startEnabled (runOf xs s) = true →
        (runOf (xs ++ [.start]) s).txbuf = encodeFrame Config.armFlagBit (published s))) ∧
    ∃ c : ChannelState,
      (∀ (i : Nat) (h : i < 16), c.ch[i] = if s.pmask.getLsbD i = true then s.pval[i] else s.cur[i]) ∧
      c.arm = (if s.parmValid = true then s.parm else s.arm) ∧
      published (runOf (issue .msgCommit :: xs) s) = c ∧
      hostSnapshot (runOf (issue .msgCommit :: xs ++ [issue .snapshot]) s) = c ∧
      (startEnabled (runOf (issue .msgCommit :: xs) s) = true →
        (runOf (issue .msgCommit :: xs ++ [.start]) s).txbuf = encodeFrame Config.armFlagBit c)

/-- Every snapshot is one whole ChannelState: after any interleaving the snapshot bank is the one before, or zero after a reset, or the
ChannelState that some state of the run published (R61, R147). -/
def Obligations.SnapshotIsOneWholeChannelState : Prop :=
  ∀ (s : State) (xs : List Input),
    hostSnapshot (runOf xs s) = hostSnapshot s ∨
    (Input.reset ∈ xs ∧ hostSnapshot (runOf xs s) = ⟨Vector.replicate 16 0#11, false⟩) ∨
    ∃ t ∈ statesAlong xs s, hostSnapshot (runOf xs s) = published t

/-- Every frame put on the wire is the encoding of the ChannelState that some state of the run published: no constant frame is built in
(R195, R194, R196). -/
def Obligations.WireFramesComeFromLiveChannelState : Prop :=
  ∀ (s : State) (xs : List Input), s.txState = .idle →
    ∃ frames, (runOf xs s).wire = s.wire ++ frames ∧
      ∀ f ∈ frames, ∃ t ∈ statesAlong xs s, f = encodeFrame Config.armFlagBit (published t)

/-- Periodicity: ticks served in time give exactly one handoff each, with no overrun, whatever commands HOST issues between them short of
`TX_ENABLE 0` (R204, R275). -/
def Obligations.ServedTicksGiveOneHandoffEach : Prop :=
  ∀ (s : State) (rounds : List ServedTick),
    s.txEn = true → s.tickPending = false → s.txState = .idle → (∀ r ∈ rounds, r.staysEnabled) →
    ∃ t, runOf (rounds.flatMap ServedTick.steps) s = t ∧
      t.txEn = true ∧ t.tickPending = false ∧ t.txState = .idle ∧
      t.wire.length = s.wire.length + rounds.countP (fun r => r.answer == .ok) ∧
      t.events.count .transportFailure =
        s.events.count .transportFailure + rounds.countP (fun r => r.answer == .fail) ∧
      t.events.count .tickOverrun = s.events.count .tickOverrun ∧
      t.faultReg.getLsbD 7 = s.faultReg.getLsbD 7

/-- Transmission is not change-driven: with no command between the ticks, every served tick sends the same frame of the unchanged
ChannelState (R190, R204). -/
def Obligations.UnchangedStateIsSentEveryTick : Prop :=
  ∀ (s : State) (n : Nat), s.txEn = true → s.tickPending = false → s.txState = .idle →
    (runOf (List.replicate n [Input.tick, .start, .handoff .ok]).flatten s).wire =
      s.wire ++ List.replicate n (encodeFrame Config.armFlagBit (published s))

/-- Shutdown: on a fair schedule, once transmission is disabled and not enabled again, TXE becomes Idle and stays so, at most the one
frame in progress is output, and then no frame ever (R272, R205). -/
def Obligations.ShutdownEndsTransmission : Prop :=
  ∀ (sched : Nat → Input) (s : State) (n : Nat), WeaklyFair sched s →
    (stateAt sched s n).txEn = false →
    (∀ m arg, n ≤ m → issues (sched m) (.txEnable arg) → arg.getLsbD 0 = false) →
    ∃ m, n ≤ m ∧ (stateAt sched s m).wire.length ≤ (stateAt sched s n).wire.length + 1 ∧
      ∀ k, m ≤ k → (stateAt sched s k).txState = .idle ∧ (stateAt sched s k).wire = (stateAt sched s m).wire

/-- `STOP` polls until the engine is Idle (R80, R272), whatever the other agents do meanwhile: every answer but the last has bit 1 set, and
one more `STATUS_GET` is issued after each of these; an answer with bit 1 clear ends the expansion, with TXE Idle and no frame put on
the wire afterwards; the loop goes on only while the handoff in progress lasts, and at most that one frame is output. -/
def Obligations.StopPollsUntilTheEngineIsIdle : Prop :=
  ∀ (s : State) (turns : List (List Input)), (∀ turn ∈ turns, otherAgents turn) →
    ∃ t answers, stopRun turns s = (t, answers) ∧
      t.txEn = false ∧ t.pc = s.pc + 1 + answers.length ∧ t.wire.length ≤ s.wire.length + 1 ∧
      (∀ d ∈ answers.dropLast, d.getLsbD 1 = true) ∧
      ((∃ d ∈ answers, d.getLsbD 1 = false) →
        Pseudo.stop.expand answers = .txEnable 0#32 :: List.replicate answers.length .statusGet ∧
        t.txState = .idle ∧ ∀ later, otherAgents later → (runOf later t).wire = t.wire) ∧
      ((∀ d ∈ answers, d.getLsbD 1 = true) →
        Pseudo.stop.expand answers = .txEnable 0#32 :: List.replicate (answers.length + 1) .statusGet ∧
        answers.length = turns.length ∧ (turns ≠ [] → t.txState = .transmitting)) ∧
      ((∃ turn ∈ turns, ∃ r, .handoff r ∈ turn) → ∃ d ∈ answers, d.getLsbD 1 = false)

/-- No starvation: on a fair schedule a pending tick is eventually served by a start step, as long as transmission is neither disabled
nor reset (R205, R64). -/
def Obligations.PendingTickIsEventuallyServed : Prop :=
  ∀ (sched : Nat → Input) (s : State) (n : Nat), WeaklyFair sched s →
    (stateAt sched s n).txEn = true → (stateAt sched s n).tickPending = true →
    (∀ m, n ≤ m → sched m ≠ .reset) →
    (∀ m arg, n ≤ m → issues (sched m) (.txEnable arg) → arg.getLsbD 0 = true) →
    ∃ m, n ≤ m ∧ sched m = .start ∧ startEnabled (stateAt sched s m) = true
end

