-- ==== Sys2Proof/Laws/Decode.lean ====
section
/-!
SUPPORT. The fields of a command word: a word is its four fields, each field of a built word is the one put in, and the mask of a form
acts field by field.
-/

namespace Sys2Proof

/-- The bits of a built word (R70). -/
theorem wordOf_getLsbD (arg : Arg) (op idx : Byte) (rsv : BitVec 16) (k : Nat) :
    (wordOf arg op idx rsv).getLsbD k =
      if k < 16 then rsv.getLsbD k else if k < 24 then idx.getLsbD (k - 16)
      else if k < 32 then op.getLsbD (k - 24) else arg.getLsbD (k - 32) := by
  simp only [wordOf, BitVec.getLsbD_append, Nat.sub_sub]
  split
  · rfl
  · rename_i h
    have h1 : k - 16 < 8 ↔ k < 24 := by omega
    have h2 : k - (16 + 8) < 8 ↔ k < 32 := by omega
    simp only [h1, h2]

@[simp] theorem argField_wordOf (arg : Arg) (op idx : Byte) (rsv : BitVec 16) : argField (wordOf arg op idx rsv) = arg := by
  refine BitVec.eq_of_getLsbD_eq fun i hi => ?_
  rw [argField, BitVec.getLsbD_extractLsb', wordOf_getLsbD, if_neg (by omega), if_neg (by omega), if_neg (by omega)]
  simp [hi]

@[simp] theorem opField_wordOf (arg : Arg) (op idx : Byte) (rsv : BitVec 16) : opField (wordOf arg op idx rsv) = op := by
  refine BitVec.eq_of_getLsbD_eq fun i hi => ?_
  rw [opField, BitVec.getLsbD_extractLsb', wordOf_getLsbD, if_neg (by omega), if_neg (by omega), if_pos (by omega)]
  simp [hi]

@[simp] theorem idxField_wordOf (arg : Arg) (op idx : Byte) (rsv : BitVec 16) : idxField (wordOf arg op idx rsv) = idx := by
  refine BitVec.eq_of_getLsbD_eq fun i hi => ?_
  rw [idxField, BitVec.getLsbD_extractLsb', wordOf_getLsbD, if_neg (by omega), if_pos (by omega)]
  simp [hi]

@[simp] theorem rsvField_wordOf (arg : Arg) (op idx : Byte) (rsv : BitVec 16) : rsvField (wordOf arg op idx rsv) = rsv := by
  refine BitVec.eq_of_getLsbD_eq fun i hi => ?_
  rw [rsvField, BitVec.getLsbD_extractLsb', wordOf_getLsbD, if_pos (by omega)]
  simp [hi]

/-- A word is its four fields (R70). -/
theorem wordOf_fields (w : CmdWord) : wordOf (argField w) (opField w) (idxField w) (rsvField w) = w := by
  refine BitVec.eq_of_getLsbD_eq fun i hi => ?_
  rw [wordOf_getLsbD]
  simp only [argField, opField, idxField, rsvField, BitVec.getLsbD_extractLsb']
  repeat' split
  · simp [*]
  · simp [show i - 16 < 8 by omega, show 16 + (i - 16) = i by omega]
  · simp [show i - 24 < 8 by omega, show 24 + (i - 24) = i by omega]
  · simp [show i - 32 < 32 by omega, show 32 + (i - 32) = i by omega]

/-- Two built words are equal exactly when their fields are. -/
theorem wordOf_inj (a a' : Arg) (o o' i i' : Byte) (r r' : BitVec 16) :
    wordOf a o i r = wordOf a' o' i' r' ↔ a = a' ∧ o = o' ∧ i = i' ∧ r = r' := by
  constructor
  · intro h
    have ha := congrArg argField h
    have ho := congrArg opField h
    have hi := congrArg idxField h
    have hr := congrArg rsvField h
    simp only [argField_wordOf, opField_wordOf, idxField_wordOf, rsvField_wordOf] at ha ho hi hr
    exact ⟨ha, ho, hi, hr⟩
  · rintro ⟨rfl, rfl, rfl, rfl⟩
    rfl

theorem wordOf_and (a a' : Arg) (o o' i i' : Byte) (r r' : BitVec 16) :
    wordOf a o i r &&& wordOf a' o' i' r' = wordOf (a &&& a') (o &&& o') (i &&& i') (r &&& r') := by
  refine BitVec.eq_of_getLsbD_eq fun k _ => ?_
  simp only [BitVec.getLsbD_and, wordOf_getLsbD]
  repeat' split
  all_goals rfl

/-- The mask of a form, field by field (R74). -/
theorem mask_fields (f : Form) : f.mask = wordOf (argField f.mask) 0xFF#8 (idxField f.mask) 0xFFFF#16 := by
  cases f <;> decide

theorem and_allOnes8 (x : Byte) : x &&& 0xFF#8 = x := BitVec.and_allOnes

theorem and_allOnes16 (x : BitVec 16) : x &&& 0xFFFF#16 = x := BitVec.and_allOnes

/-- What it takes for a word to select a row: the row's `OP`, `RSV` 0, and 0 in the fixed bits of `ARG` and `IDX` (R73 to R75). -/
theorem selects_iff (r : OpcodeRow) (w : CmdWord) :
    r.selects w = true ↔ argField w &&& argField r.form.mask = 0#32 ∧ opField w = r.op ∧
      idxField w &&& idxField r.form.mask = 0#8 ∧ rsvField w = 0#16 := by
  rw [OpcodeRow.selects, beq_iff_eq, OpcodeRow.pattern]
  conv_lhs => rw [← wordOf_fields w, mask_fields]
  rw [wordOf_and, wordOf_inj, and_allOnes8, and_allOnes16]

/-! ## The fixed-zero bits of forms AB and AF (R72) -/

theorem andMask_eq_zero_iff (a m : Arg) : a &&& m = 0#32 ↔ ∀ k < 32, m.getLsbD k = true → a.getLsbD k = false := by
  constructor
  · intro h k hk hm
    have := congrArg (fun v => v.getLsbD k) h
    simpa [hm] using this
  · intro h
    refine BitVec.eq_of_getLsbD_eq fun k hk => ?_
    cases hm : m.getLsbD k
    · simp [hm]
    · simp [h k hk hm]

theorem byteArgOk_iff (arg : Arg) : byteArgOk arg = true ↔ arg &&& argField Form.AB.mask = 0#32 := by
  rw [byteArgOk, beq_iff_eq, andMask_eq_zero_iff]
  have hm : ∀ k < 32, (argField Form.AB.mask).getLsbD k = decide (8 ≤ k) := by decide
  constructor
  · intro h k hk hb
    rw [hm k hk, decide_eq_true_eq] at hb
    have := congrArg (fun v => v.getLsbD (k - 8)) h
    simpa [show 8 + (k - 8) = k by omega, show k - 8 < 24 by omega] using this
  · intro h
    refine BitVec.eq_of_getLsbD_eq fun k hk => ?_
    simpa [hk] using h (8 + k) (by omega) (by simp [hm (8 + k) (by omega)])

theorem flagArgOk_iff (arg : Arg) : flagArgOk arg = true ↔ arg &&& argField Form.AF.mask = 0#32 := by
  rw [flagArgOk, beq_iff_eq, andMask_eq_zero_iff]
  have hm : ∀ k < 32, (argField Form.AF.mask).getLsbD k = decide (1 ≤ k) := by decide
  constructor
  · intro h k hk hb
    rw [hm k hk, decide_eq_true_eq] at hb
    have := congrArg (fun v => v.getLsbD (k - 1)) h
    simpa [show 1 + (k - 1) = k by omega, show k - 1 < 31 by omega] using this
  · intro h
    refine BitVec.eq_of_getLsbD_eq fun k hk => ?_
    simpa [hk] using h (1 + k) (by omega) (by simp [hm (1 + k) (by omega)])

/-- The table holds the row of every mnemonic, and finds it by its `OP` (R75). -/
theorem find_row (m : Mnemonic) : opcodeTable.find? (fun row => row.op == m.row.op) = some m.row := by
  cases m <;> decide

theorem row_mnemonic (m : Mnemonic) : m.row.mnemonic = m := by
  cases m <;> rfl

theorem row_of_mem {row : OpcodeRow} (h : row ∈ opcodeTable) : row = row.mnemonic.row := by
  revert row
  decide

/-- The decoder on a word whose `OP` is a row's (R77). -/
theorem decode_of_op {w : CmdWord} {m : Mnemonic} (h : opField w = m.row.op) :
    decode w = if m.row.selects w then some (m.command (idxField w) (argField w)) else none := by
  rw [decode, h, find_row]
  simp only [row_mnemonic]

/-- A word the decoder accepts carries the `OP` of a mnemonic and selects its row (R77). -/
theorem decode_some {w : CmdWord} {i : Instr} (h : decode w = some i) :
    ∃ m : Mnemonic, opField w = m.row.op ∧ m.row.selects w = true ∧ i = m.command (idxField w) (argField w) := by
  unfold decode at h
  split at h
  · exact absurd h (by simp)
  · rename_i row hrow
    have hmem := List.mem_of_find?_eq_some hrow
    have hop := List.find?_some hrow
    rw [beq_iff_eq] at hop
    rw [row_of_mem hmem] at hop h
    simp only [row_mnemonic] at h
    split at h
    · rename_i hsel
      exact ⟨row.mnemonic, hop.symm, hsel, (Option.some.inj h).symm⟩
    · exact absurd h (by simp)

/-- A word no opcode row's `OP` matches is illegal (R76). -/
theorem decode_none_of_op {w : CmdWord} (h : ∀ m : Mnemonic, opField w ≠ m.row.op) : decode w = none := by
  cases hd : decode w with
  | none => rfl
  | some i =>
    obtain ⟨m, hm, -⟩ := decode_some hd
    exact absurd hm (h m)

end Sys2Proof
end

