-- ==== Sys2Proof/Laws/State.lean ====
section
/-!
SUPPORT. What every named update of State leaves in every field: one lemma per field per update, true by rfl, so that no proof
unfolds a record update.
-/

namespace Sys2Proof.Machine


/-! ## respond -/

@[simp] theorem respond_cur (code : Byte) (data : BitVec 32) (s : State) : (respond code data s).cur = s.cur := rfl
@[simp] theorem respond_arm (code : Byte) (data : BitVec 32) (s : State) : (respond code data s).arm = s.arm := rfl
@[simp] theorem respond_snap (code : Byte) (data : BitVec 32) (s : State) : (respond code data s).snap = s.snap := rfl
@[simp] theorem respond_snapArm (code : Byte) (data : BitVec 32) (s : State) : (respond code data s).snapArm = s.snapArm := rfl
@[simp] theorem respond_msgOpen (code : Byte) (data : BitVec 32) (s : State) : (respond code data s).msgOpen = s.msgOpen := rfl
@[simp] theorem respond_pmask (code : Byte) (data : BitVec 32) (s : State) : (respond code data s).pmask = s.pmask := rfl
@[simp] theorem respond_pval (code : Byte) (data : BitVec 32) (s : State) : (respond code data s).pval = s.pval := rfl
@[simp] theorem respond_parmValid (code : Byte) (data : BitVec 32) (s : State) : (respond code data s).parmValid = s.parmValid := rfl
@[simp] theorem respond_parm (code : Byte) (data : BitVec 32) (s : State) : (respond code data s).parm = s.parm := rfl
@[simp] theorem respond_fout (code : Byte) (data : BitVec 32) (s : State) : (respond code data s).fout = s.fout := rfl
@[simp] theorem respond_din (code : Byte) (data : BitVec 32) (s : State) : (respond code data s).din = s.din := rfl
@[simp] theorem respond_dinLen (code : Byte) (data : BitVec 32) (s : State) : (respond code data s).dinLen = s.dinLen := rfl
@[simp] theorem respond_dec (code : Byte) (data : BitVec 32) (s : State) : (respond code data s).dec = s.dec := rfl
@[simp] theorem respond_decArm (code : Byte) (data : BitVec 32) (s : State) : (respond code data s).decArm = s.decArm := rfl
@[simp] theorem respond_decFlags (code : Byte) (data : BitVec 32) (s : State) : (respond code data s).decFlags = s.decFlags := rfl
@[simp] theorem respond_txEn (code : Byte) (data : BitVec 32) (s : State) : (respond code data s).txEn = s.txEn := rfl
@[simp] theorem respond_txState (code : Byte) (data : BitVec 32) (s : State) : (respond code data s).txState = s.txState := rfl
@[simp] theorem respond_tickPending (code : Byte) (data : BitVec 32) (s : State) : (respond code data s).tickPending = s.tickPending := rfl
@[simp] theorem respond_txbuf (code : Byte) (data : BitVec 32) (s : State) : (respond code data s).txbuf = s.txbuf := rfl
@[simp] theorem respond_faultReg (code : Byte) (data : BitVec 32) (s : State) : (respond code data s).faultReg = s.faultReg := rfl
@[simp] theorem respond_respCode (code : Byte) (data : BitVec 32) (s : State) : (respond code data s).respCode = code := rfl
@[simp] theorem respond_respData (code : Byte) (data : BitVec 32) (s : State) : (respond code data s).respData = data := rfl
@[simp] theorem respond_pc (code : Byte) (data : BitVec 32) (s : State) : (respond code data s).pc = s.pc := rfl
@[simp] theorem respond_wire (code : Byte) (data : BitVec 32) (s : State) : (respond code data s).wire = s.wire := rfl
@[simp] theorem respond_events (code : Byte) (data : BitVec 32) (s : State) : (respond code data s).events = s.events := rfl
@[simp] theorem respond_inputs (code : Byte) (data : BitVec 32) (s : State) : (respond code data s).inputs = s.inputs := rfl

/-! ## emit -/

@[simp] theorem emit_cur (e : Event) (s : State) : (emit e s).cur = s.cur := rfl
@[simp] theorem emit_arm (e : Event) (s : State) : (emit e s).arm = s.arm := rfl
@[simp] theorem emit_snap (e : Event) (s : State) : (emit e s).snap = s.snap := rfl
@[simp] theorem emit_snapArm (e : Event) (s : State) : (emit e s).snapArm = s.snapArm := rfl
@[simp] theorem emit_msgOpen (e : Event) (s : State) : (emit e s).msgOpen = s.msgOpen := rfl
@[simp] theorem emit_pmask (e : Event) (s : State) : (emit e s).pmask = s.pmask := rfl
@[simp] theorem emit_pval (e : Event) (s : State) : (emit e s).pval = s.pval := rfl
@[simp] theorem emit_parmValid (e : Event) (s : State) : (emit e s).parmValid = s.parmValid := rfl
@[simp] theorem emit_parm (e : Event) (s : State) : (emit e s).parm = s.parm := rfl
@[simp] theorem emit_fout (e : Event) (s : State) : (emit e s).fout = s.fout := rfl
@[simp] theorem emit_din (e : Event) (s : State) : (emit e s).din = s.din := rfl
@[simp] theorem emit_dinLen (e : Event) (s : State) : (emit e s).dinLen = s.dinLen := rfl
@[simp] theorem emit_dec (e : Event) (s : State) : (emit e s).dec = s.dec := rfl
@[simp] theorem emit_decArm (e : Event) (s : State) : (emit e s).decArm = s.decArm := rfl
@[simp] theorem emit_decFlags (e : Event) (s : State) : (emit e s).decFlags = s.decFlags := rfl
@[simp] theorem emit_txEn (e : Event) (s : State) : (emit e s).txEn = s.txEn := rfl
@[simp] theorem emit_txState (e : Event) (s : State) : (emit e s).txState = s.txState := rfl
@[simp] theorem emit_tickPending (e : Event) (s : State) : (emit e s).tickPending = s.tickPending := rfl
@[simp] theorem emit_txbuf (e : Event) (s : State) : (emit e s).txbuf = s.txbuf := rfl
@[simp] theorem emit_faultReg (e : Event) (s : State) : (emit e s).faultReg = s.faultReg := rfl
@[simp] theorem emit_respCode (e : Event) (s : State) : (emit e s).respCode = s.respCode := rfl
@[simp] theorem emit_respData (e : Event) (s : State) : (emit e s).respData = s.respData := rfl
@[simp] theorem emit_pc (e : Event) (s : State) : (emit e s).pc = s.pc := rfl
@[simp] theorem emit_wire (e : Event) (s : State) : (emit e s).wire = s.wire := rfl
@[simp] theorem emit_events (e : Event) (s : State) : (emit e s).events = s.events ++ [e] := rfl
@[simp] theorem emit_inputs (e : Event) (s : State) : (emit e s).inputs = s.inputs := rfl

/-! ## recordFault -/

@[simp] theorem recordFault_cur (k : Nat) (s : State) : (recordFault k s).cur = s.cur := rfl
@[simp] theorem recordFault_arm (k : Nat) (s : State) : (recordFault k s).arm = s.arm := rfl
@[simp] theorem recordFault_snap (k : Nat) (s : State) : (recordFault k s).snap = s.snap := rfl
@[simp] theorem recordFault_snapArm (k : Nat) (s : State) : (recordFault k s).snapArm = s.snapArm := rfl
@[simp] theorem recordFault_msgOpen (k : Nat) (s : State) : (recordFault k s).msgOpen = s.msgOpen := rfl
@[simp] theorem recordFault_pmask (k : Nat) (s : State) : (recordFault k s).pmask = s.pmask := rfl
@[simp] theorem recordFault_pval (k : Nat) (s : State) : (recordFault k s).pval = s.pval := rfl
@[simp] theorem recordFault_parmValid (k : Nat) (s : State) : (recordFault k s).parmValid = s.parmValid := rfl
@[simp] theorem recordFault_parm (k : Nat) (s : State) : (recordFault k s).parm = s.parm := rfl
@[simp] theorem recordFault_fout (k : Nat) (s : State) : (recordFault k s).fout = s.fout := rfl
@[simp] theorem recordFault_din (k : Nat) (s : State) : (recordFault k s).din = s.din := rfl
@[simp] theorem recordFault_dinLen (k : Nat) (s : State) : (recordFault k s).dinLen = s.dinLen := rfl
@[simp] theorem recordFault_dec (k : Nat) (s : State) : (recordFault k s).dec = s.dec := rfl
@[simp] theorem recordFault_decArm (k : Nat) (s : State) : (recordFault k s).decArm = s.decArm := rfl
@[simp] theorem recordFault_decFlags (k : Nat) (s : State) : (recordFault k s).decFlags = s.decFlags := rfl
@[simp] theorem recordFault_txEn (k : Nat) (s : State) : (recordFault k s).txEn = s.txEn := rfl
@[simp] theorem recordFault_txState (k : Nat) (s : State) : (recordFault k s).txState = s.txState := rfl
@[simp] theorem recordFault_tickPending (k : Nat) (s : State) : (recordFault k s).tickPending = s.tickPending := rfl
@[simp] theorem recordFault_txbuf (k : Nat) (s : State) : (recordFault k s).txbuf = s.txbuf := rfl
@[simp] theorem recordFault_faultReg (k : Nat) (s : State) : (recordFault k s).faultReg = setFaultBit k s.faultReg := rfl
@[simp] theorem recordFault_respCode (k : Nat) (s : State) : (recordFault k s).respCode = s.respCode := rfl
@[simp] theorem recordFault_respData (k : Nat) (s : State) : (recordFault k s).respData = s.respData := rfl
@[simp] theorem recordFault_pc (k : Nat) (s : State) : (recordFault k s).pc = s.pc := rfl
@[simp] theorem recordFault_wire (k : Nat) (s : State) : (recordFault k s).wire = s.wire := rfl
@[simp] theorem recordFault_events (k : Nat) (s : State) : (recordFault k s).events = s.events := rfl
@[simp] theorem recordFault_inputs (k : Nat) (s : State) : (recordFault k s).inputs = s.inputs := rfl

/-! ## raise -/

@[simp] theorem raise_cur (e : Contract) (s : State) : (raise e s).cur = s.cur := rfl
@[simp] theorem raise_arm (e : Contract) (s : State) : (raise e s).arm = s.arm := rfl
@[simp] theorem raise_snap (e : Contract) (s : State) : (raise e s).snap = s.snap := rfl
@[simp] theorem raise_snapArm (e : Contract) (s : State) : (raise e s).snapArm = s.snapArm := rfl
@[simp] theorem raise_msgOpen (e : Contract) (s : State) : (raise e s).msgOpen = s.msgOpen := rfl
@[simp] theorem raise_pmask (e : Contract) (s : State) : (raise e s).pmask = s.pmask := rfl
@[simp] theorem raise_pval (e : Contract) (s : State) : (raise e s).pval = s.pval := rfl
@[simp] theorem raise_parmValid (e : Contract) (s : State) : (raise e s).parmValid = s.parmValid := rfl
@[simp] theorem raise_parm (e : Contract) (s : State) : (raise e s).parm = s.parm := rfl
@[simp] theorem raise_fout (e : Contract) (s : State) : (raise e s).fout = s.fout := rfl
@[simp] theorem raise_din (e : Contract) (s : State) : (raise e s).din = s.din := rfl
@[simp] theorem raise_dinLen (e : Contract) (s : State) : (raise e s).dinLen = s.dinLen := rfl
@[simp] theorem raise_dec (e : Contract) (s : State) : (raise e s).dec = s.dec := rfl
@[simp] theorem raise_decArm (e : Contract) (s : State) : (raise e s).decArm = s.decArm := rfl
@[simp] theorem raise_decFlags (e : Contract) (s : State) : (raise e s).decFlags = s.decFlags := rfl
@[simp] theorem raise_txEn (e : Contract) (s : State) : (raise e s).txEn = s.txEn := rfl
@[simp] theorem raise_txState (e : Contract) (s : State) : (raise e s).txState = s.txState := rfl
@[simp] theorem raise_tickPending (e : Contract) (s : State) : (raise e s).tickPending = s.tickPending := rfl
@[simp] theorem raise_txbuf (e : Contract) (s : State) : (raise e s).txbuf = s.txbuf := rfl
@[simp] theorem raise_faultReg (e : Contract) (s : State) : (raise e s).faultReg = setFaultBit (e.code.toNat - 1) s.faultReg := rfl
@[simp] theorem raise_respCode (e : Contract) (s : State) : (raise e s).respCode = e.code := rfl
@[simp] theorem raise_respData (e : Contract) (s : State) : (raise e s).respData = 0#32 := rfl
@[simp] theorem raise_pc (e : Contract) (s : State) : (raise e s).pc = s.pc := rfl
@[simp] theorem raise_wire (e : Contract) (s : State) : (raise e s).wire = s.wire := rfl
@[simp] theorem raise_events (e : Contract) (s : State) : (raise e s).events = s.events ++ [.contract e] := rfl
@[simp] theorem raise_inputs (e : Contract) (s : State) : (raise e s).inputs = s.inputs := rfl

/-! ## clearStaging -/

@[simp] theorem clearStaging_cur (opened : Bool) (s : State) : (clearStaging opened s).cur = s.cur := rfl
@[simp] theorem clearStaging_arm (opened : Bool) (s : State) : (clearStaging opened s).arm = s.arm := rfl
@[simp] theorem clearStaging_snap (opened : Bool) (s : State) : (clearStaging opened s).snap = s.snap := rfl
@[simp] theorem clearStaging_snapArm (opened : Bool) (s : State) : (clearStaging opened s).snapArm = s.snapArm := rfl
@[simp] theorem clearStaging_msgOpen (opened : Bool) (s : State) : (clearStaging opened s).msgOpen = opened := rfl
@[simp] theorem clearStaging_pmask (opened : Bool) (s : State) : (clearStaging opened s).pmask = 0#16 := rfl
@[simp] theorem clearStaging_pval (opened : Bool) (s : State) : (clearStaging opened s).pval = s.pval := rfl
@[simp] theorem clearStaging_parmValid (opened : Bool) (s : State) : (clearStaging opened s).parmValid = false := rfl
@[simp] theorem clearStaging_parm (opened : Bool) (s : State) : (clearStaging opened s).parm = s.parm := rfl
@[simp] theorem clearStaging_fout (opened : Bool) (s : State) : (clearStaging opened s).fout = s.fout := rfl
@[simp] theorem clearStaging_din (opened : Bool) (s : State) : (clearStaging opened s).din = s.din := rfl
@[simp] theorem clearStaging_dinLen (opened : Bool) (s : State) : (clearStaging opened s).dinLen = s.dinLen := rfl
@[simp] theorem clearStaging_dec (opened : Bool) (s : State) : (clearStaging opened s).dec = s.dec := rfl
@[simp] theorem clearStaging_decArm (opened : Bool) (s : State) : (clearStaging opened s).decArm = s.decArm := rfl
@[simp] theorem clearStaging_decFlags (opened : Bool) (s : State) : (clearStaging opened s).decFlags = s.decFlags := rfl
@[simp] theorem clearStaging_txEn (opened : Bool) (s : State) : (clearStaging opened s).txEn = s.txEn := rfl
@[simp] theorem clearStaging_txState (opened : Bool) (s : State) : (clearStaging opened s).txState = s.txState := rfl
@[simp] theorem clearStaging_tickPending (opened : Bool) (s : State) : (clearStaging opened s).tickPending = s.tickPending := rfl
@[simp] theorem clearStaging_txbuf (opened : Bool) (s : State) : (clearStaging opened s).txbuf = s.txbuf := rfl
@[simp] theorem clearStaging_faultReg (opened : Bool) (s : State) : (clearStaging opened s).faultReg = s.faultReg := rfl
@[simp] theorem clearStaging_respCode (opened : Bool) (s : State) : (clearStaging opened s).respCode = s.respCode := rfl
@[simp] theorem clearStaging_respData (opened : Bool) (s : State) : (clearStaging opened s).respData = s.respData := rfl
@[simp] theorem clearStaging_pc (opened : Bool) (s : State) : (clearStaging opened s).pc = s.pc := rfl
@[simp] theorem clearStaging_wire (opened : Bool) (s : State) : (clearStaging opened s).wire = s.wire := rfl
@[simp] theorem clearStaging_events (opened : Bool) (s : State) : (clearStaging opened s).events = s.events := rfl
@[simp] theorem clearStaging_inputs (opened : Bool) (s : State) : (clearStaging opened s).inputs = s.inputs := rfl

/-! ## stageChannel -/

@[simp] theorem stageChannel_cur (i : Fin 16) (c : Chan) (s : State) : (stageChannel i c s).cur = s.cur := rfl
@[simp] theorem stageChannel_arm (i : Fin 16) (c : Chan) (s : State) : (stageChannel i c s).arm = s.arm := rfl
@[simp] theorem stageChannel_snap (i : Fin 16) (c : Chan) (s : State) : (stageChannel i c s).snap = s.snap := rfl
@[simp] theorem stageChannel_snapArm (i : Fin 16) (c : Chan) (s : State) : (stageChannel i c s).snapArm = s.snapArm := rfl
@[simp] theorem stageChannel_msgOpen (i : Fin 16) (c : Chan) (s : State) : (stageChannel i c s).msgOpen = s.msgOpen := rfl
@[simp] theorem stageChannel_pmask (i : Fin 16) (c : Chan) (s : State) : (stageChannel i c s).pmask = s.pmask ||| (1#16 <<< i.val) := rfl
@[simp] theorem stageChannel_pval (i : Fin 16) (c : Chan) (s : State) : (stageChannel i c s).pval = s.pval.set i c := rfl
@[simp] theorem stageChannel_parmValid (i : Fin 16) (c : Chan) (s : State) : (stageChannel i c s).parmValid = s.parmValid := rfl
@[simp] theorem stageChannel_parm (i : Fin 16) (c : Chan) (s : State) : (stageChannel i c s).parm = s.parm := rfl
@[simp] theorem stageChannel_fout (i : Fin 16) (c : Chan) (s : State) : (stageChannel i c s).fout = s.fout := rfl
@[simp] theorem stageChannel_din (i : Fin 16) (c : Chan) (s : State) : (stageChannel i c s).din = s.din := rfl
@[simp] theorem stageChannel_dinLen (i : Fin 16) (c : Chan) (s : State) : (stageChannel i c s).dinLen = s.dinLen := rfl
@[simp] theorem stageChannel_dec (i : Fin 16) (c : Chan) (s : State) : (stageChannel i c s).dec = s.dec := rfl
@[simp] theorem stageChannel_decArm (i : Fin 16) (c : Chan) (s : State) : (stageChannel i c s).decArm = s.decArm := rfl
@[simp] theorem stageChannel_decFlags (i : Fin 16) (c : Chan) (s : State) : (stageChannel i c s).decFlags = s.decFlags := rfl
@[simp] theorem stageChannel_txEn (i : Fin 16) (c : Chan) (s : State) : (stageChannel i c s).txEn = s.txEn := rfl
@[simp] theorem stageChannel_txState (i : Fin 16) (c : Chan) (s : State) : (stageChannel i c s).txState = s.txState := rfl
@[simp] theorem stageChannel_tickPending (i : Fin 16) (c : Chan) (s : State) : (stageChannel i c s).tickPending = s.tickPending := rfl
@[simp] theorem stageChannel_txbuf (i : Fin 16) (c : Chan) (s : State) : (stageChannel i c s).txbuf = s.txbuf := rfl
@[simp] theorem stageChannel_faultReg (i : Fin 16) (c : Chan) (s : State) : (stageChannel i c s).faultReg = s.faultReg := rfl
@[simp] theorem stageChannel_respCode (i : Fin 16) (c : Chan) (s : State) : (stageChannel i c s).respCode = s.respCode := rfl
@[simp] theorem stageChannel_respData (i : Fin 16) (c : Chan) (s : State) : (stageChannel i c s).respData = s.respData := rfl
@[simp] theorem stageChannel_pc (i : Fin 16) (c : Chan) (s : State) : (stageChannel i c s).pc = s.pc := rfl
@[simp] theorem stageChannel_wire (i : Fin 16) (c : Chan) (s : State) : (stageChannel i c s).wire = s.wire := rfl
@[simp] theorem stageChannel_events (i : Fin 16) (c : Chan) (s : State) : (stageChannel i c s).events = s.events := rfl
@[simp] theorem stageChannel_inputs (i : Fin 16) (c : Chan) (s : State) : (stageChannel i c s).inputs = s.inputs := rfl

/-! ## stageArm -/

@[simp] theorem stageArm_cur (a : Bool) (s : State) : (stageArm a s).cur = s.cur := rfl
@[simp] theorem stageArm_arm (a : Bool) (s : State) : (stageArm a s).arm = s.arm := rfl
@[simp] theorem stageArm_snap (a : Bool) (s : State) : (stageArm a s).snap = s.snap := rfl
@[simp] theorem stageArm_snapArm (a : Bool) (s : State) : (stageArm a s).snapArm = s.snapArm := rfl
@[simp] theorem stageArm_msgOpen (a : Bool) (s : State) : (stageArm a s).msgOpen = s.msgOpen := rfl
@[simp] theorem stageArm_pmask (a : Bool) (s : State) : (stageArm a s).pmask = s.pmask := rfl
@[simp] theorem stageArm_pval (a : Bool) (s : State) : (stageArm a s).pval = s.pval := rfl
@[simp] theorem stageArm_parmValid (a : Bool) (s : State) : (stageArm a s).parmValid = true := rfl
@[simp] theorem stageArm_parm (a : Bool) (s : State) : (stageArm a s).parm = a := rfl
@[simp] theorem stageArm_fout (a : Bool) (s : State) : (stageArm a s).fout = s.fout := rfl
@[simp] theorem stageArm_din (a : Bool) (s : State) : (stageArm a s).din = s.din := rfl
@[simp] theorem stageArm_dinLen (a : Bool) (s : State) : (stageArm a s).dinLen = s.dinLen := rfl
@[simp] theorem stageArm_dec (a : Bool) (s : State) : (stageArm a s).dec = s.dec := rfl
@[simp] theorem stageArm_decArm (a : Bool) (s : State) : (stageArm a s).decArm = s.decArm := rfl
@[simp] theorem stageArm_decFlags (a : Bool) (s : State) : (stageArm a s).decFlags = s.decFlags := rfl
@[simp] theorem stageArm_txEn (a : Bool) (s : State) : (stageArm a s).txEn = s.txEn := rfl
@[simp] theorem stageArm_txState (a : Bool) (s : State) : (stageArm a s).txState = s.txState := rfl
@[simp] theorem stageArm_tickPending (a : Bool) (s : State) : (stageArm a s).tickPending = s.tickPending := rfl
@[simp] theorem stageArm_txbuf (a : Bool) (s : State) : (stageArm a s).txbuf = s.txbuf := rfl
@[simp] theorem stageArm_faultReg (a : Bool) (s : State) : (stageArm a s).faultReg = s.faultReg := rfl
@[simp] theorem stageArm_respCode (a : Bool) (s : State) : (stageArm a s).respCode = s.respCode := rfl
@[simp] theorem stageArm_respData (a : Bool) (s : State) : (stageArm a s).respData = s.respData := rfl
@[simp] theorem stageArm_pc (a : Bool) (s : State) : (stageArm a s).pc = s.pc := rfl
@[simp] theorem stageArm_wire (a : Bool) (s : State) : (stageArm a s).wire = s.wire := rfl
@[simp] theorem stageArm_events (a : Bool) (s : State) : (stageArm a s).events = s.events := rfl
@[simp] theorem stageArm_inputs (a : Bool) (s : State) : (stageArm a s).inputs = s.inputs := rfl

/-! ## applyStaged -/

@[simp] theorem applyStaged_cur (s : State) : (applyStaged s).cur = mergeStaged s.pmask s.pval s.cur := rfl
@[simp] theorem applyStaged_arm (s : State) : (applyStaged s).arm = if s.parmValid then s.parm else s.arm := rfl
@[simp] theorem applyStaged_snap (s : State) : (applyStaged s).snap = s.snap := rfl
@[simp] theorem applyStaged_snapArm (s : State) : (applyStaged s).snapArm = s.snapArm := rfl
@[simp] theorem applyStaged_msgOpen (s : State) : (applyStaged s).msgOpen = s.msgOpen := rfl
@[simp] theorem applyStaged_pmask (s : State) : (applyStaged s).pmask = s.pmask := rfl
@[simp] theorem applyStaged_pval (s : State) : (applyStaged s).pval = s.pval := rfl
@[simp] theorem applyStaged_parmValid (s : State) : (applyStaged s).parmValid = s.parmValid := rfl
@[simp] theorem applyStaged_parm (s : State) : (applyStaged s).parm = s.parm := rfl
@[simp] theorem applyStaged_fout (s : State) : (applyStaged s).fout = s.fout := rfl
@[simp] theorem applyStaged_din (s : State) : (applyStaged s).din = s.din := rfl
@[simp] theorem applyStaged_dinLen (s : State) : (applyStaged s).dinLen = s.dinLen := rfl
@[simp] theorem applyStaged_dec (s : State) : (applyStaged s).dec = s.dec := rfl
@[simp] theorem applyStaged_decArm (s : State) : (applyStaged s).decArm = s.decArm := rfl
@[simp] theorem applyStaged_decFlags (s : State) : (applyStaged s).decFlags = s.decFlags := rfl
@[simp] theorem applyStaged_txEn (s : State) : (applyStaged s).txEn = s.txEn := rfl
@[simp] theorem applyStaged_txState (s : State) : (applyStaged s).txState = s.txState := rfl
@[simp] theorem applyStaged_tickPending (s : State) : (applyStaged s).tickPending = s.tickPending := rfl
@[simp] theorem applyStaged_txbuf (s : State) : (applyStaged s).txbuf = s.txbuf := rfl
@[simp] theorem applyStaged_faultReg (s : State) : (applyStaged s).faultReg = s.faultReg := rfl
@[simp] theorem applyStaged_respCode (s : State) : (applyStaged s).respCode = s.respCode := rfl
@[simp] theorem applyStaged_respData (s : State) : (applyStaged s).respData = s.respData := rfl
@[simp] theorem applyStaged_pc (s : State) : (applyStaged s).pc = s.pc := rfl
@[simp] theorem applyStaged_wire (s : State) : (applyStaged s).wire = s.wire := rfl
@[simp] theorem applyStaged_events (s : State) : (applyStaged s).events = s.events := rfl
@[simp] theorem applyStaged_inputs (s : State) : (applyStaged s).inputs = s.inputs := rfl

/-! ## advancePc -/

@[simp] theorem advancePc_cur (s : State) : (advancePc s).cur = s.cur := rfl
@[simp] theorem advancePc_arm (s : State) : (advancePc s).arm = s.arm := rfl
@[simp] theorem advancePc_snap (s : State) : (advancePc s).snap = s.snap := rfl
@[simp] theorem advancePc_snapArm (s : State) : (advancePc s).snapArm = s.snapArm := rfl
@[simp] theorem advancePc_msgOpen (s : State) : (advancePc s).msgOpen = s.msgOpen := rfl
@[simp] theorem advancePc_pmask (s : State) : (advancePc s).pmask = s.pmask := rfl
@[simp] theorem advancePc_pval (s : State) : (advancePc s).pval = s.pval := rfl
@[simp] theorem advancePc_parmValid (s : State) : (advancePc s).parmValid = s.parmValid := rfl
@[simp] theorem advancePc_parm (s : State) : (advancePc s).parm = s.parm := rfl
@[simp] theorem advancePc_fout (s : State) : (advancePc s).fout = s.fout := rfl
@[simp] theorem advancePc_din (s : State) : (advancePc s).din = s.din := rfl
@[simp] theorem advancePc_dinLen (s : State) : (advancePc s).dinLen = s.dinLen := rfl
@[simp] theorem advancePc_dec (s : State) : (advancePc s).dec = s.dec := rfl
@[simp] theorem advancePc_decArm (s : State) : (advancePc s).decArm = s.decArm := rfl
@[simp] theorem advancePc_decFlags (s : State) : (advancePc s).decFlags = s.decFlags := rfl
@[simp] theorem advancePc_txEn (s : State) : (advancePc s).txEn = s.txEn := rfl
@[simp] theorem advancePc_txState (s : State) : (advancePc s).txState = s.txState := rfl
@[simp] theorem advancePc_tickPending (s : State) : (advancePc s).tickPending = s.tickPending := rfl
@[simp] theorem advancePc_txbuf (s : State) : (advancePc s).txbuf = s.txbuf := rfl
@[simp] theorem advancePc_faultReg (s : State) : (advancePc s).faultReg = s.faultReg := rfl
@[simp] theorem advancePc_respCode (s : State) : (advancePc s).respCode = s.respCode := rfl
@[simp] theorem advancePc_respData (s : State) : (advancePc s).respData = s.respData := rfl
@[simp] theorem advancePc_pc (s : State) : (advancePc s).pc = s.pc + 1 := rfl
@[simp] theorem advancePc_wire (s : State) : (advancePc s).wire = s.wire := rfl
@[simp] theorem advancePc_events (s : State) : (advancePc s).events = s.events := rfl
@[simp] theorem advancePc_inputs (s : State) : (advancePc s).inputs = s.inputs := rfl

/-! ## withInputs -/

@[simp] theorem withInputs_cur (xs : List Input) (s : State) : (withInputs xs s).cur = s.cur := rfl
@[simp] theorem withInputs_arm (xs : List Input) (s : State) : (withInputs xs s).arm = s.arm := rfl
@[simp] theorem withInputs_snap (xs : List Input) (s : State) : (withInputs xs s).snap = s.snap := rfl
@[simp] theorem withInputs_snapArm (xs : List Input) (s : State) : (withInputs xs s).snapArm = s.snapArm := rfl
@[simp] theorem withInputs_msgOpen (xs : List Input) (s : State) : (withInputs xs s).msgOpen = s.msgOpen := rfl
@[simp] theorem withInputs_pmask (xs : List Input) (s : State) : (withInputs xs s).pmask = s.pmask := rfl
@[simp] theorem withInputs_pval (xs : List Input) (s : State) : (withInputs xs s).pval = s.pval := rfl
@[simp] theorem withInputs_parmValid (xs : List Input) (s : State) : (withInputs xs s).parmValid = s.parmValid := rfl
@[simp] theorem withInputs_parm (xs : List Input) (s : State) : (withInputs xs s).parm = s.parm := rfl
@[simp] theorem withInputs_fout (xs : List Input) (s : State) : (withInputs xs s).fout = s.fout := rfl
@[simp] theorem withInputs_din (xs : List Input) (s : State) : (withInputs xs s).din = s.din := rfl
@[simp] theorem withInputs_dinLen (xs : List Input) (s : State) : (withInputs xs s).dinLen = s.dinLen := rfl
@[simp] theorem withInputs_dec (xs : List Input) (s : State) : (withInputs xs s).dec = s.dec := rfl
@[simp] theorem withInputs_decArm (xs : List Input) (s : State) : (withInputs xs s).decArm = s.decArm := rfl
@[simp] theorem withInputs_decFlags (xs : List Input) (s : State) : (withInputs xs s).decFlags = s.decFlags := rfl
@[simp] theorem withInputs_txEn (xs : List Input) (s : State) : (withInputs xs s).txEn = s.txEn := rfl
@[simp] theorem withInputs_txState (xs : List Input) (s : State) : (withInputs xs s).txState = s.txState := rfl
@[simp] theorem withInputs_tickPending (xs : List Input) (s : State) : (withInputs xs s).tickPending = s.tickPending := rfl
@[simp] theorem withInputs_txbuf (xs : List Input) (s : State) : (withInputs xs s).txbuf = s.txbuf := rfl
@[simp] theorem withInputs_faultReg (xs : List Input) (s : State) : (withInputs xs s).faultReg = s.faultReg := rfl
@[simp] theorem withInputs_respCode (xs : List Input) (s : State) : (withInputs xs s).respCode = s.respCode := rfl
@[simp] theorem withInputs_respData (xs : List Input) (s : State) : (withInputs xs s).respData = s.respData := rfl
@[simp] theorem withInputs_pc (xs : List Input) (s : State) : (withInputs xs s).pc = s.pc := rfl
@[simp] theorem withInputs_wire (xs : List Input) (s : State) : (withInputs xs s).wire = s.wire := rfl
@[simp] theorem withInputs_events (xs : List Input) (s : State) : (withInputs xs s).events = s.events := rfl
@[simp] theorem withInputs_inputs (xs : List Input) (s : State) : (withInputs xs s).inputs = xs := rfl

@[simp] theorem withInputs_withInputs (xs ys : List Input) (s : State) : withInputs xs (withInputs ys s) = withInputs xs s := rfl

/-! ## dropInput -/

@[simp] theorem dropInput_cur (s : State) : (dropInput s).cur = s.cur := rfl
@[simp] theorem dropInput_arm (s : State) : (dropInput s).arm = s.arm := rfl
@[simp] theorem dropInput_snap (s : State) : (dropInput s).snap = s.snap := rfl
@[simp] theorem dropInput_snapArm (s : State) : (dropInput s).snapArm = s.snapArm := rfl
@[simp] theorem dropInput_msgOpen (s : State) : (dropInput s).msgOpen = s.msgOpen := rfl
@[simp] theorem dropInput_pmask (s : State) : (dropInput s).pmask = s.pmask := rfl
@[simp] theorem dropInput_pval (s : State) : (dropInput s).pval = s.pval := rfl
@[simp] theorem dropInput_parmValid (s : State) : (dropInput s).parmValid = s.parmValid := rfl
@[simp] theorem dropInput_parm (s : State) : (dropInput s).parm = s.parm := rfl
@[simp] theorem dropInput_fout (s : State) : (dropInput s).fout = s.fout := rfl
@[simp] theorem dropInput_din (s : State) : (dropInput s).din = s.din := rfl
@[simp] theorem dropInput_dinLen (s : State) : (dropInput s).dinLen = s.dinLen := rfl
@[simp] theorem dropInput_dec (s : State) : (dropInput s).dec = s.dec := rfl
@[simp] theorem dropInput_decArm (s : State) : (dropInput s).decArm = s.decArm := rfl
@[simp] theorem dropInput_decFlags (s : State) : (dropInput s).decFlags = s.decFlags := rfl
@[simp] theorem dropInput_txEn (s : State) : (dropInput s).txEn = s.txEn := rfl
@[simp] theorem dropInput_txState (s : State) : (dropInput s).txState = s.txState := rfl
@[simp] theorem dropInput_tickPending (s : State) : (dropInput s).tickPending = s.tickPending := rfl
@[simp] theorem dropInput_txbuf (s : State) : (dropInput s).txbuf = s.txbuf := rfl
@[simp] theorem dropInput_faultReg (s : State) : (dropInput s).faultReg = s.faultReg := rfl
@[simp] theorem dropInput_respCode (s : State) : (dropInput s).respCode = s.respCode := rfl
@[simp] theorem dropInput_respData (s : State) : (dropInput s).respData = s.respData := rfl
@[simp] theorem dropInput_pc (s : State) : (dropInput s).pc = s.pc := rfl
@[simp] theorem dropInput_wire (s : State) : (dropInput s).wire = s.wire := rfl
@[simp] theorem dropInput_events (s : State) : (dropInput s).events = s.events := rfl
@[simp] theorem dropInput_inputs (s : State) : (dropInput s).inputs = s.inputs.tail := rfl

/-! ## placeInput -/

@[simp] theorem placeInput_cur (x : Input) (s : State) : (placeInput x s).cur = s.cur := rfl
@[simp] theorem placeInput_arm (x : Input) (s : State) : (placeInput x s).arm = s.arm := rfl
@[simp] theorem placeInput_snap (x : Input) (s : State) : (placeInput x s).snap = s.snap := rfl
@[simp] theorem placeInput_snapArm (x : Input) (s : State) : (placeInput x s).snapArm = s.snapArm := rfl
@[simp] theorem placeInput_msgOpen (x : Input) (s : State) : (placeInput x s).msgOpen = s.msgOpen := rfl
@[simp] theorem placeInput_pmask (x : Input) (s : State) : (placeInput x s).pmask = s.pmask := rfl
@[simp] theorem placeInput_pval (x : Input) (s : State) : (placeInput x s).pval = s.pval := rfl
@[simp] theorem placeInput_parmValid (x : Input) (s : State) : (placeInput x s).parmValid = s.parmValid := rfl
@[simp] theorem placeInput_parm (x : Input) (s : State) : (placeInput x s).parm = s.parm := rfl
@[simp] theorem placeInput_fout (x : Input) (s : State) : (placeInput x s).fout = s.fout := rfl
@[simp] theorem placeInput_din (x : Input) (s : State) : (placeInput x s).din = s.din := rfl
@[simp] theorem placeInput_dinLen (x : Input) (s : State) : (placeInput x s).dinLen = s.dinLen := rfl
@[simp] theorem placeInput_dec (x : Input) (s : State) : (placeInput x s).dec = s.dec := rfl
@[simp] theorem placeInput_decArm (x : Input) (s : State) : (placeInput x s).decArm = s.decArm := rfl
@[simp] theorem placeInput_decFlags (x : Input) (s : State) : (placeInput x s).decFlags = s.decFlags := rfl
@[simp] theorem placeInput_txEn (x : Input) (s : State) : (placeInput x s).txEn = s.txEn := rfl
@[simp] theorem placeInput_txState (x : Input) (s : State) : (placeInput x s).txState = s.txState := rfl
@[simp] theorem placeInput_tickPending (x : Input) (s : State) : (placeInput x s).tickPending = s.tickPending := rfl
@[simp] theorem placeInput_txbuf (x : Input) (s : State) : (placeInput x s).txbuf = s.txbuf := rfl
@[simp] theorem placeInput_faultReg (x : Input) (s : State) : (placeInput x s).faultReg = s.faultReg := rfl
@[simp] theorem placeInput_respCode (x : Input) (s : State) : (placeInput x s).respCode = s.respCode := rfl
@[simp] theorem placeInput_respData (x : Input) (s : State) : (placeInput x s).respData = s.respData := rfl
@[simp] theorem placeInput_pc (x : Input) (s : State) : (placeInput x s).pc = s.pc := rfl
@[simp] theorem placeInput_wire (x : Input) (s : State) : (placeInput x s).wire = s.wire := rfl
@[simp] theorem placeInput_events (x : Input) (s : State) : (placeInput x s).events = s.events := rfl
@[simp] theorem placeInput_inputs (x : Input) (s : State) : (placeInput x s).inputs = x :: s.inputs := rfl

/-! ## applyReset -/

@[simp] theorem applyReset_cur (s : State) : (applyReset s).cur = State.reset.cur := rfl
@[simp] theorem applyReset_arm (s : State) : (applyReset s).arm = State.reset.arm := rfl
@[simp] theorem applyReset_snap (s : State) : (applyReset s).snap = State.reset.snap := rfl
@[simp] theorem applyReset_snapArm (s : State) : (applyReset s).snapArm = State.reset.snapArm := rfl
@[simp] theorem applyReset_msgOpen (s : State) : (applyReset s).msgOpen = State.reset.msgOpen := rfl
@[simp] theorem applyReset_pmask (s : State) : (applyReset s).pmask = State.reset.pmask := rfl
@[simp] theorem applyReset_pval (s : State) : (applyReset s).pval = State.reset.pval := rfl
@[simp] theorem applyReset_parmValid (s : State) : (applyReset s).parmValid = State.reset.parmValid := rfl
@[simp] theorem applyReset_parm (s : State) : (applyReset s).parm = State.reset.parm := rfl
@[simp] theorem applyReset_fout (s : State) : (applyReset s).fout = State.reset.fout := rfl
@[simp] theorem applyReset_din (s : State) : (applyReset s).din = State.reset.din := rfl
@[simp] theorem applyReset_dinLen (s : State) : (applyReset s).dinLen = State.reset.dinLen := rfl
@[simp] theorem applyReset_dec (s : State) : (applyReset s).dec = State.reset.dec := rfl
@[simp] theorem applyReset_decArm (s : State) : (applyReset s).decArm = State.reset.decArm := rfl
@[simp] theorem applyReset_decFlags (s : State) : (applyReset s).decFlags = State.reset.decFlags := rfl
@[simp] theorem applyReset_txEn (s : State) : (applyReset s).txEn = State.reset.txEn := rfl
@[simp] theorem applyReset_txState (s : State) : (applyReset s).txState = State.reset.txState := rfl
@[simp] theorem applyReset_tickPending (s : State) : (applyReset s).tickPending = State.reset.tickPending := rfl
@[simp] theorem applyReset_txbuf (s : State) : (applyReset s).txbuf = State.reset.txbuf := rfl
@[simp] theorem applyReset_faultReg (s : State) : (applyReset s).faultReg = State.reset.faultReg := rfl
@[simp] theorem applyReset_respCode (s : State) : (applyReset s).respCode = State.reset.respCode := rfl
@[simp] theorem applyReset_respData (s : State) : (applyReset s).respData = State.reset.respData := rfl
@[simp] theorem applyReset_pc (s : State) : (applyReset s).pc = s.pc := rfl
@[simp] theorem applyReset_wire (s : State) : (applyReset s).wire = s.wire := rfl
@[simp] theorem applyReset_events (s : State) : (applyReset s).events = s.events := rfl
@[simp] theorem applyReset_inputs (s : State) : (applyReset s).inputs = s.inputs := rfl

end Sys2Proof.Machine
end

