-- ==== Sys2Proof/Laws/Ops.lean ====
section
/-!
SUPPORT. What each shared operation does, said once: operands, flags, the response, the error path, the indexed read and the staging.
Later proofs cite these lemmas and never unfold the operation.
-/

namespace Sys2Proof.Machine

/-! ## Operands -/

theorem sval_eq_toInt (arg : Arg) : sval arg = arg.toInt := by
  have h := arg.isLt
  unfold sval
  rw [BitVec.toInt_eq_toNat_cond, ← BitVec.msb_eq_getLsbD_last, BitVec.msb_eq_decide]
  simp only [decide_eq_true_eq]
  split <;> split <;> omega

theorem clamp_eq (v : Int) : clamp v = min (max v 0) 2047 := rfl

theorem clamp_bounds (v : Int) : 0 ≤ clamp v ∧ clamp v ≤ 2047 := by
  rw [clamp_eq]; omega

theorem clamp_eq_self_iff (v : Int) : clamp v = v ↔ 0 ≤ v ∧ v ≤ 2047 := by
  rw [clamp_eq]; omega

theorem outOfChannelRange_iff (v : Int) : outOfChannelRange v = true ↔ v < 0 ∨ 2047 < v := by
  rw [outOfChannelRange, Bool.or_eq_true, decide_eq_true_eq, decide_eq_true_eq]
  rfl

theorem lowChan_toNat {v : Int} (h0 : 0 ≤ v) (h1 : v ≤ 2047) : ((lowChan v).toNat : Int) = v := by
  rw [lowChan, BitVec.toNat_ofInt]
  omega

theorem index?_of_lt {n : Nat} {idx : Byte} (h : idx.toNat < n) : index? n idx = some ⟨idx.toNat, h⟩ :=
  dif_pos h

theorem index?_of_ge {n : Nat} {idx : Byte} (h : n ≤ idx.toNat) : index? n idx = none :=
  dif_neg (Nat.not_lt.mpr h)

theorem index?_cases (n : Nat) (idx : Byte) :
    (∃ h : idx.toNat < n, index? n idx = some ⟨idx.toNat, h⟩) ∨ (n ≤ idx.toNat ∧ index? n idx = none) := by
  rcases Nat.lt_or_ge idx.toNat n with h | h
  · exact .inl ⟨h, index?_of_lt h⟩
  · exact .inr ⟨h, index?_of_ge h⟩

theorem fieldTarget_of_channel {code : Byte} (h : code.toNat < 16) : fieldTarget code = .channel ⟨code.toNat, h⟩ := by
  rw [fieldTarget, index?_of_lt h]

theorem fieldTarget_armed : fieldTarget 0x10#8 = .armed := by decide

theorem fieldTarget_of_unknown {code : Byte} (h : 0x11 ≤ code.toNat) : fieldTarget code = .unknown := by
  rw [fieldTarget, index?_of_ge (by omega), if_neg]
  rintro rfl
  exact absurd h (by decide)

theorem fieldTarget_cases (code : Byte) :
    (∃ h : code.toNat < 16, fieldTarget code = .channel ⟨code.toNat, h⟩) ∨
      (code = 0x10#8 ∧ fieldTarget code = .armed) ∨ (0x11 ≤ code.toNat ∧ fieldTarget code = .unknown) := by
  rcases Nat.lt_or_ge code.toNat 16 with h | h
  · exact .inl ⟨h, fieldTarget_of_channel h⟩
  · by_cases h16 : code = 0x10#8
    · exact .inr (.inl ⟨h16, h16 ▸ fieldTarget_armed⟩)
    · have : code.toNat ≠ 16 := fun hh => h16 (BitVec.eq_of_toNat_eq hh)
      exact .inr (.inr ⟨by omega, fieldTarget_of_unknown (by omega)⟩)

/-! ## Flags -/

theorem oneBit_getLsbD (width j k : Nat) (hk : k < width) : (1#width <<< j).getLsbD k = (k == j) := by
  rw [Bool.eq_iff_iff]
  simp only [BitVec.getLsbD_shiftLeft, BitVec.getLsbD_one, hk, decide_true, Bool.true_and, Bool.and_eq_true,
    decide_eq_true_eq, Bool.not_eq_true', decide_eq_false_iff_not, beq_iff_eq]
  omega

theorem setFaultBit_getLsbD (j k : Nat) (f : BitVec 32) (hk : k < 32) :
    (setFaultBit j f).getLsbD k = (f.getLsbD k || k == j) := by
  rw [setFaultBit, BitVec.getLsbD_or, oneBit_getLsbD _ _ _ hk]

/-! ## The response and the error path -/

theorem complete_eq (data : BitVec 32) (s : State) : complete data s = .next (afterOk data s) := rfl

theorem fail_eq (e : Contract) (s : State) :
    fail e s = .next (afterError e.code (1#32 <<< (e.code.toNat - 1)) e s) := rfl

theorem code_bounds (e : Contract) : 1 ≤ e.code.toNat ∧ e.code.toNat ≤ 7 := by
  cases e <;> simp [Contract.code]

theorem code_ne_ok (e : Contract) : e.code ≠ okCode := by
  cases e <;> simp [Contract.code, okCode]

theorem readElement_of_lt {width n : Nat} (file : Vector (BitVec width) n) {idx : Byte} (h : idx.toNat < n) (s : State) :
    readElement file idx s = .next (afterOk (zext32 file[idx.toNat]) s) := by
  rw [readElement, index?_of_lt h]; rfl

theorem readElement_of_ge {width n : Nat} (file : Vector (BitVec width) n) {idx : Byte} (h : n ≤ idx.toNat) (s : State) :
    readElement file idx s = .next (afterError 0x01#8 0x01#32 (.indexOutOfRange idx) s) := by
  rw [readElement, index?_of_ge h]; rfl

/-! ## The staging -/

theorem mergeStaged_getElem (mask : BitVec 16) (staged cur : Channels) (i : Nat) (h : i < 16) :
    (mergeStaged mask staged cur)[i] = if mask.getLsbD i then staged[i] else cur[i] := by
  simp [mergeStaged, BitVec.getLsbD_eq_getElem h]

theorem stagedMask_getLsbD (m : BitVec 16) (i : Fin 16) (j : Nat) (hj : j < 16) :
    (m ||| (1#16 <<< i.val)).getLsbD j = (m.getLsbD j || j == i.val) := by
  rw [BitVec.getLsbD_or, oneBit_getLsbD _ _ _ hj]

theorem argByte_eq (arg : Arg) : argByte arg = arg.extractLsb' 0 8 := rfl

theorem argFlag_eq (arg : Arg) : argFlag arg = arg.getLsbD 0 := rfl

end Sys2Proof.Machine
end

