-- ==== Sys2Proof/Laws/Frames.lean ====
section
/-!
SUPPORT. The stream of a packed list bit by bit, the bytes of a frame by position, and the decode buffer after a push.
-/

namespace Sys2Proof.Machine

/-! ## The stream (R100) -/

/-- A list every value of which fits its width: what `pack_le` is asked to pack (R100). -/
def Fits (pairs : List (Nat × Nat)) : Prop := ∀ p ∈ pairs, p.1 < 2 ^ p.2

theorem Fits.tail {p : Nat × Nat} {pairs : List (Nat × Nat)} (h : Fits (p :: pairs)) : Fits pairs :=
  fun q hq => h q (List.mem_cons_of_mem _ hq)

theorem Fits.head {p : Nat × Nat} {pairs : List (Nat × Nat)} (h : Fits (p :: pairs)) : p.1 < 2 ^ p.2 :=
  h p List.mem_cons_self

theorem totalWidth_eq_sum (ws : List Nat) : totalWidth ws = ws.sum := by
  induction ws with
  | nil => rfl
  | cons w ws ih => simp [totalWidth, ih]

theorem streamFrom_shift (pairs : List (Nat × Nat)) (off d : Nat) :
    streamFrom (off + d) pairs = streamFrom off pairs <<< d := by
  induction pairs generalizing off with
  | nil => simp [streamFrom]
  | cons p rest ih =>
    simp only [streamFrom]
    rw [show off + d + p.2 = off + p.2 + d by omega, ih]
    simp only [Nat.shiftLeft_eq, Nat.pow_add]
    ring

theorem streamFrom_cons (v w : Nat) (rest : List (Nat × Nat)) :
    streamFrom 0 ((v, w) :: rest) = 2 ^ w * streamFrom 0 rest + v := by
  rw [streamFrom, streamFrom_shift rest 0 w]
  simp only [Nat.shiftLeft_eq]
  ring

theorem streamFrom_lt {pairs : List (Nat × Nat)} (h : Fits pairs) :
    streamFrom 0 pairs < 2 ^ (pairs.map Prod.snd).sum := by
  induction pairs with
  | nil => simp [streamFrom]
  | cons p rest ih =>
    obtain ⟨v, w⟩ := p
    have hv : v < 2 ^ w := h.head
    have hr := ih h.tail
    rw [streamFrom_cons, List.map_cons, List.sum_cons, Nat.pow_add]
    calc 2 ^ w * streamFrom 0 rest + v < 2 ^ w * streamFrom 0 rest + 2 ^ w := by omega
      _ = 2 ^ w * (streamFrom 0 rest + 1) := by ring
      _ ≤ 2 ^ w * 2 ^ (rest.map Prod.snd).sum := Nat.mul_le_mul_left _ hr

/-- Stream bit `off_k + b` is bit `b` of `v_k` (R100). -/
theorem streamFrom_testBit {pairs : List (Nat × Nat)} (h : Fits pairs) (k b : Nat) (hk : k < pairs.length)
    (hb : b < (pairs[k]).2) :
    (streamFrom 0 pairs).testBit (((pairs.take k).map Prod.snd).sum + b) = (pairs[k]).1.testBit b := by
  induction pairs generalizing k with
  | nil => simp at hk
  | cons p rest ih =>
    obtain ⟨v, w⟩ := p
    rw [streamFrom_cons, Nat.testBit_two_pow_mul_add _ h.head]
    cases k with
    | zero =>
      simp only [List.getElem_cons_zero] at hb
      simp [hb]
    | succ k =>
      simp only [List.getElem_cons_succ, List.length_cons, Nat.add_lt_add_iff_right] at hb hk ⊢
      simp only [List.take_succ_cons, List.map_cons, List.sum_cons]
      rw [if_neg (by omega), ← ih h.tail k hk hb]
      congr 1
      omega

theorem streamByte_getLsbD (t j b : Nat) (hb : b < 8) : (streamByte t j).getLsbD b = t.testBit (8 * j + b) := by
  rw [streamByte, BitVec.getLsbD_ofNat, Nat.testBit_shiftRight]
  simp [hb]

/-- Stream bit `t` is bit `t mod 8` of output byte `t div 8` (R100). -/
theorem packLe_bit {pairs : List (Nat × Nat)} (h : Fits pairs) (t : Nat) :
    ((packLe pairs).getD (t / 8) 0#8).getLsbD (t % 8) = (streamFrom 0 pairs).testBit t := by
  have hb : t % 8 < 8 := Nat.mod_lt _ (by decide)
  by_cases hj : t / 8 < byteCount (totalWidth (pairs.map Prod.snd))
  · have hlen : t / 8 < (packLe pairs).length := by rw [packLe_length]; exact hj
    rw [List.getD_eq_getElem _ _ hlen]
    simp only [packLe, List.getElem_map, List.getElem_range]
    rw [streamByte_getLsbD _ _ _ hb, Nat.div_add_mod]
  · rw [List.getD_eq_default _ _ (by rw [packLe_length]; omega)]
    rw [byteCount, totalWidth_eq_sum] at hj
    have : streamFrom 0 pairs < 2 ^ t :=
      Nat.lt_of_lt_of_le (streamFrom_lt h) (Nat.pow_le_pow_right (by decide) (by omega))
    simp [Nat.testBit_lt_two_pow this]

/-- Bit `t` of the stream that bytes carry (R101). -/
theorem streamOfBytes_testBit (bytes : List Byte) (t : Nat) :
    (streamOfBytes bytes).testBit t = (bytes.getD (t / 8) 0#8).getLsbD (t % 8) := by
  induction bytes generalizing t with
  | nil => simp [streamOfBytes]
  | cons b rest ih =>
    have e : streamOfBytes (b :: rest) = 2 ^ 8 * streamOfBytes rest + b.toNat := by
      simp only [streamOfBytes, Nat.shiftLeft_eq]; ring
    rw [e, Nat.testBit_two_pow_mul_add _ b.isLt]
    by_cases h : t < 8
    · rw [if_pos h, Nat.div_eq_of_lt h, Nat.mod_eq_of_lt h]
      rfl
    · rw [if_neg h, ih, show t / 8 = (t - 8) / 8 + 1 by omega, show t % 8 = (t - 8) % 8 by omega, List.getD_cons_succ]

theorem streamOfBytes_packLe {pairs : List (Nat × Nat)} (h : Fits pairs) :
    streamOfBytes (packLe pairs) = streamFrom 0 pairs :=
  Nat.eq_of_testBit_eq fun t => by rw [streamOfBytes_testBit, packLe_bit h]

/-! ## The payload and the frame (R102, R106) -/

theorem channelPairs_fits (ch : Channels) : Fits (channelPairs ch) := by
  intro p hp
  obtain ⟨c, -, rfl⟩ := List.mem_map.1 hp
  exact c.isLt

/-- Stream bit `11c + b` of a payload is bit `b` of channel `c` (R53, R102). -/
theorem payload_bit (ch : Channels) (c b : Nat) (hc : c < 16) (hb : b < 11) :
    ((payload ch)[(11 * c + b) / 8]'(by omega)).getLsbD ((11 * c + b) % 8) = ch[c].getLsbD b := by
  have hlen : (channelPairs ch).length = 16 := by simp [channelPairs]
  have hoff : (((channelPairs ch).take c).map Prod.snd).sum = 11 * c := by
    have : ((channelPairs ch).take c).map Prod.snd = List.replicate c 11 := by
      rw [List.map_take, channelPairs_widths, channelWidths, List.take_replicate, Nat.min_eq_left (by omega)]
    rw [this, List.sum_replicate, smul_eq_mul, Nat.mul_comm]
  have hk : (channelPairs ch)[c]'(by omega) = (ch[c].toNat, 11) := by simp [channelPairs]
  have hbit := streamFrom_testBit (channelPairs_fits ch) c b (by omega) (by rw [hk]; exact hb)
  rw [hoff, hk, ← packLe_bit (channelPairs_fits ch)] at hbit
  rw [List.getD_eq_getElem _ _ (by rw [payload_length]; omega)] at hbit
  simpa [payload, BitVec.testBit_toNat] using hbit

theorem encodeFrame_header (k : Fin 2) (c : ChannelState) : (encodeFrame k c)[0] = Config.header := by
  have e : (encodeFrame k c)[0] =
      (#v[Config.header] ++ payload c.ch ++ #v[flagsByte k c.arm] ++ #v[Config.footer])[0] := rfl
  rw [e, Vector.getElem_append_left (by omega), Vector.getElem_append_left (by omega), Vector.getElem_append_left (by omega)]
  rfl

theorem encodeFrame_payload (k : Fin 2) (c : ChannelState) (j : Nat) (h : j < 22) :
    (encodeFrame k c)[1 + j] = (payload c.ch)[j] := by
  have e : (encodeFrame k c)[1 + j] =
      (#v[Config.header] ++ payload c.ch ++ #v[flagsByte k c.arm] ++ #v[Config.footer])[1 + j] := rfl
  rw [e, Vector.getElem_append_left (by omega), Vector.getElem_append_left (by omega), Vector.getElem_append_right (by omega)]
  · simp
  · omega

theorem encodeFrame_flags (k : Fin 2) (c : ChannelState) : (encodeFrame k c)[23] = flagsByte k c.arm := by
  have e : (encodeFrame k c)[23] =
      (#v[Config.header] ++ payload c.ch ++ #v[flagsByte k c.arm] ++ #v[Config.footer])[23] := rfl
  rw [e, Vector.getElem_append_left (by omega), Vector.getElem_append_right (by omega)]
  · simp
  · omega

theorem encodeFrame_footer (k : Fin 2) (c : ChannelState) : (encodeFrame k c)[24] = Config.footer := by
  have e : (encodeFrame k c)[24] =
      (#v[Config.header] ++ payload c.ch ++ #v[flagsByte k c.arm] ++ #v[Config.footer])[24] := rfl
  rw [e, Vector.getElem_append_right (by omega)]
  · simp
  · omega

theorem payloadBytes_getD (f : Frame) (j : Nat) (h : j < 22) : (payloadBytes f).getD j 0#8 = f[1 + j] := by
  rw [List.getD_eq_getElem _ _ (by simp [payloadBytes]; omega)]
  simp [payloadBytes, Nat.add_comm]

theorem fieldsFrom_getElem (t off w k n : Nat) (h : k < n) :
    (fieldsFrom t off (List.replicate n w))[k]'(by rw [fieldsFrom_length]; simpa using h) =
      (t >>> (off + w * k)) % 2 ^ w := by
  induction n generalizing off k with
  | zero => omega
  | succ n ih =>
    simp only [List.replicate_succ, fieldsFrom]
    cases k with
    | zero => simp
    | succ k =>
      simp only [List.getElem_cons_succ]
      rw [ih (off + w) k (by omega)]
      congr 2
      ring

/-- Bit `b` of channel `i` that a frame carries: the bit `11i + b` of its payload's stream (R53, R124). -/
theorem unpackChannels_bit (f : Frame) (i b : Nat) (hi : i < 16) (hb : b < 11) :
    ((unpackChannels (payloadBytes f))[i]).getLsbD b =
      (f[1 + (11 * i + b) / 8]'(by omega)).getLsbD ((11 * i + b) % 8) := by
  have e : (unpackChannels (payloadBytes f))[i] =
      BitVec.ofNat 11 ((streamOfBytes (payloadBytes f) >>> (0 + 11 * i)) % 2 ^ 11) := by
    simp only [unpackChannels, unpackLe, channelWidths, Vector.getElem_mk, List.getElem_toArray, List.getElem_map]
    rw [fieldsFrom_getElem _ _ _ _ _ hi]
  rw [e, BitVec.getLsbD_ofNat, Nat.testBit_mod_two_pow, Nat.testBit_shiftRight, streamOfBytes_testBit, Nat.zero_add,
    payloadBytes_getD f _ (by omega)]
  simp [hb]

/-! ## The checks of a decode, in order (R124, R125) -/

theorem decodeFrame_of_badLength (k : Fin 2) (f : Frame) {n : Byte} (h : n ≠ 25#8) :
    decodeFrame k f n = .failed .badLength := if_pos h

theorem decodeFrame_of_badHeader (k : Fin 2) {f : Frame} (h : f[0] ≠ 0x0F#8) :
    decodeFrame k f 25#8 = .failed .badHeader := by
  rw [decodeFrame, if_neg (not_not.2 rfl)]
  exact if_pos h

theorem decodeFrame_of_badFooter (k : Fin 2) {f : Frame} (h0 : f[0] = 0x0F#8) (h : f[24] ≠ 0x00#8) :
    decodeFrame k f 25#8 = .failed .badFooter := by
  rw [decodeFrame, if_neg (not_not.2 rfl)]
  exact (if_neg (not_not.2 h0)).trans (if_pos h)

theorem decodeFrame_of_good (k : Fin 2) {f : Frame} (h0 : f[0] = 0x0F#8) (h : f[24] = 0x00#8) :
    decodeFrame k f 25#8 = .decoded ⟨unpackChannels (payloadBytes f), f[23].getLsbD k.val⟩ f[23] := by
  rw [decodeFrame, if_neg (not_not.2 rfl)]
  exact (if_neg (not_not.2 h0)).trans (if_neg (not_not.2 h))

/-! ## The decode buffer (R122) -/

theorem pushedBytes_getElem (b len : Byte) (din : Frame) (j : Nat) (h : j < 25) :
    (pushedBytes b len din)[j] = if j = len.toNat then b else din[j] := by
  unfold pushedBytes
  rcases index?_cases 25 len with ⟨h', e⟩ | ⟨h', e⟩
  · simp only [e, Vector.getElem_set]
    simp only [eq_comm]
  · simp only [e]
    rw [if_neg (by omega)]

theorem pushedLen_toNat (len : Byte) : (pushedLen len).toNat = min (len.toNat + 1) 255 := by
  have := len.isLt
  unfold pushedLen
  split
  · rw [BitVec.toNat_add]
    have : (1#8).toNat = 1 := rfl
    omega
  · omega

end Sys2Proof.Machine
end

