-- ==== Sys2Proof/Laws/Exec.lean ====
section
/-!
SUPPORT. What a command can do, said once: the state each command leaves, in cases, and that the steps to come play no part in it.
-/

namespace Sys2Proof.Machine

theorem readElement_cases {width n : Nat} (file : Vector (BitVec width) n) (idx : Byte) (s : State) :
    (∃ d, readElement file idx s = .next (respond okCode d s)) ∨
      readElement file idx s = .next (raise (.indexOutOfRange idx) s) := by
  unfold readElement
  split
  · exact .inr rfl
  · exact .inl ⟨_, rfl⟩

theorem exec_next (i : Instr) (s : State) : ∃ t, exec i s = .next t := by
  have read : ∀ {width n : Nat} (file : Vector (BitVec width) n) (idx : Byte), ∃ t, readElement file idx s = .next t := by
    intro width n file idx
    rcases readElement_cases file idx s with ⟨d, h⟩ | h
    · exact ⟨_, h⟩
    · exact ⟨_, h⟩
  cases i <;> simp only [exec]
  case chGet | snapGet | foutGet | decGet | txfGet => exact read _ _
  case chSet =>
    unfold execChSet
    split
    · exact ⟨_, rfl⟩
    · split <;> exact ⟨_, rfl⟩
  case decode =>
    unfold execDecode
    split <;> exact ⟨_, rfl⟩
  case msgBegin =>
    unfold execMsgBegin
    split <;> exact ⟨_, rfl⟩
  case msgCommit =>
    unfold execMsgCommit
    split <;> exact ⟨_, rfl⟩
  case msgField =>
    unfold execMsgField
    split
    · split
      · unfold stageField
        split <;> exact ⟨_, rfl⟩
      · exact ⟨_, rfl⟩
      · exact ⟨_, rfl⟩
    · exact ⟨_, rfl⟩
  all_goals exact ⟨_, rfl⟩

/-- The state a command leaves. -/
def resultOf (i : Instr) (s : State) : State :=
  match exec i s with
  | .next t => t
  | .fault _ => s
  | .refused _ => s

theorem exec_eq_resultOf (i : Instr) (s : State) : exec i s = .next (resultOf i s) := by
  obtain ⟨t, h⟩ := exec_next i s
  simp [resultOf, h]

theorem resultOf_eq {i : Instr} {s t : State} (h : exec i s = .next t) : resultOf i s = t :=
  Host.Outcome.next.inj ((exec_eq_resultOf i s).symm.trans h)

/-- What a command can do: the error path, a response alone, or the one effect of its rule. -/
inductive Effect (s : State) : Instr → State → Prop where
  | error (i : Instr) (e : Contract) : Effect s i (raise e s)
  | reads (i : Instr) (data : BitVec 32) (h : readsOnly i = true) : Effect s i (respond okCode data s)
  | nop : Effect s .nop (respond okCode 0#32 s)
  | chSet (k : Byte) (a : Arg) (hk : k.toNat < 16) (h : outOfChannelRange (sval a) = false) :
      Effect s (.chSet k a) (respond okCode 0#32 { s with cur := s.cur.set k.toNat (lowChan (sval a)) })
  | snapshot : Effect s .snapshot (respond okCode 0#32 { s with snap := s.cur, snapArm := s.arm })
  | encode : Effect s .encode (respond okCode 0#32 { s with fout := encodeFrame Config.armFlagBit (hostSnapshot s) })
  | dinClear : Effect s .dinClear (respond okCode 0#32 { s with dinLen := 0#8 })
  | dinPush (a : Arg) : Effect s (.dinPush a)
      (respond okCode 0#32 { s with din := pushedBytes (argByte a) s.dinLen s.din, dinLen := pushedLen s.dinLen })
  | decode (c : ChannelState) (f : Byte) (h : decodeFrame Config.armFlagBit s.din s.dinLen = .decoded c f) :
      Effect s .decode (respond okCode 0#32 { s with dec := c.ch, decArm := c.arm, decFlags := f })
  | msgBegin (h : s.msgOpen = false) : Effect s .msgBegin (respond okCode 0#32 (clearStaging true s))
  | stages (k : Byte) (a : Arg) (h : s.msgOpen = true) (hk : k.toNat < 16) (hc : clamp (sval a) = sval a) :
      Effect s (.msgField k a) (respond okCode 0#32 (stageChannel ⟨k.toNat, hk⟩ (lowChan (sval a)) s))
  | clamps (k : Byte) (a : Arg) (h : s.msgOpen = true) (hk : k.toNat < 16) (hc : clamp (sval a) ≠ sval a) :
      Effect s (.msgField k a) (respond okCode 1#32 (emit (.clamp k (sval a) (lowChan (clamp (sval a))))
        (stageChannel ⟨k.toNat, hk⟩ (lowChan (clamp (sval a))) s)))
  | stagesArm (a : Arg) (h : s.msgOpen = true) :
      Effect s (.msgField 0x10#8 a) (respond okCode 0#32 (stageArm (sval a != 0) s))
  | ignores (k : Byte) (a : Arg) (h : s.msgOpen = true) (hk : 0x11 ≤ k.toNat) :
      Effect s (.msgField k a) (respond okCode 2#32 s)
  | msgCommit (h : s.msgOpen = true) :
      Effect s .msgCommit (respond okCode 0#32 (clearStaging false (applyStaged s)))
  | msgAbort : Effect s .msgAbort (respond okCode 0#32 (emit .parseFailure (clearStaging false s)))
  | txEnable (a : Arg) : Effect s (.txEnable a)
      (respond okCode 0#32 { s with txEn := argFlag a, tickPending := argFlag a && s.tickPending })

theorem Effect.of_readElement {width n : Nat} {file : Vector (BitVec width) n} {idx : Byte} {s : State} {i : Instr}
    (h : exec i s = readElement file idx s) (hr : readsOnly i = true) : Effect s i (resultOf i s) := by
  rcases readElement_cases file idx s with ⟨d, hd⟩ | he
  · rw [resultOf_eq (h.trans hd)]
    exact .reads i d hr
  · rw [resultOf_eq (h.trans he)]
    exact .error i _

/-- The inversion lemma of `exec`: what a command leaves is one of its effects. -/
theorem exec_effect (i : Instr) (s : State) : Effect s i (resultOf i s) := by
  cases i
  case nop => exact .nop
  case chGet k => exact .of_readElement (file := s.cur) rfl rfl
  case snapGet k => exact .of_readElement (file := s.snap) rfl rfl
  case foutGet k => exact .of_readElement (file := s.fout) rfl rfl
  case decGet k => exact .of_readElement (file := s.dec) rfl rfl
  case txfGet k => exact .of_readElement (file := s.txbuf) rfl rfl
  case armGet | snapArmGet | decFlagsGet | statusGet | faultGet => exact .reads _ _ rfl
  case chSet k a =>
    have h := exec_eq_resultOf (.chSet k a) s
    simp only [exec, execChSet] at h
    rcases index?_cases 16 k with ⟨hk, e⟩ | ⟨_, e⟩ <;> simp only [e] at h
    · split at h
      · exact Host.Outcome.next.inj h ▸ .error _ _
      · rename_i hr
        exact Host.Outcome.next.inj h ▸ .chSet k a hk (by simpa using hr)
    · exact Host.Outcome.next.inj h ▸ .error _ _
  case snapshot => exact .snapshot
  case encode => exact .encode
  case dinClear => exact .dinClear
  case dinPush a => exact .dinPush a
  case decode =>
    have h := exec_eq_resultOf .decode s
    simp only [exec, execDecode] at h
    split at h
    · exact Host.Outcome.next.inj h ▸ .error _ _
    · exact Host.Outcome.next.inj h ▸ .error _ _
    · exact Host.Outcome.next.inj h ▸ .error _ _
    · rename_i hd
      exact Host.Outcome.next.inj h ▸ .decode _ _ hd
  case msgBegin =>
    have h := exec_eq_resultOf .msgBegin s
    simp only [exec, execMsgBegin] at h
    split at h
    · exact Host.Outcome.next.inj h ▸ .error _ _
    · rename_i ho
      exact Host.Outcome.next.inj h ▸ .msgBegin (by simpa using ho)
  case msgField k a =>
    have h := exec_eq_resultOf (.msgField k a) s
    simp only [exec, execMsgField] at h
    split at h
    · rename_i ho
      rcases fieldTarget_cases k with ⟨hk, e⟩ | ⟨rfl, e⟩ | ⟨hk, e⟩ <;> simp only [e, stageField] at h
      · split at h
        · rename_i hc
          exact Host.Outcome.next.inj h ▸ .clamps k a ho hk hc
        · rename_i hc
          have hc := Decidable.not_not.mp hc
          rw [hc] at h
          exact Host.Outcome.next.inj h ▸ .stages k a ho hk hc
      · exact Host.Outcome.next.inj h ▸ .stagesArm a ho
      · exact Host.Outcome.next.inj h ▸ .ignores k a ho hk
    · exact Host.Outcome.next.inj h ▸ .error _ _
  case msgCommit =>
    have h := exec_eq_resultOf .msgCommit s
    simp only [exec, execMsgCommit] at h
    split at h
    · rename_i ho
      exact Host.Outcome.next.inj h ▸ .msgCommit ho
    · exact Host.Outcome.next.inj h ▸ .error _ _
  case msgAbort => exact .msgAbort
  case txEnable a => exact .txEnable a

/-! ## The steps to come play no part in a command -/

theorem readElement_withInputs {width n : Nat} (file : Vector (BitVec width) n) (idx : Byte) (s : State) (xs : List Input)
    {t : State} (h : readElement file idx s = .next t) :
    readElement file idx (withInputs xs s) = .next (withInputs xs t) := by
  unfold readElement at h ⊢
  split at h <;> exact Host.Outcome.next.inj h ▸ rfl

theorem exec_withInputs (i : Instr) (s : State) (xs : List Input) {t : State} (h : exec i s = .next t) :
    exec i (withInputs xs s) = .next (withInputs xs t) := by
  cases i
  case chGet | snapGet | foutGet | decGet | txfGet => exact readElement_withInputs _ _ _ xs h
  case chSet k a =>
    simp only [exec, execChSet] at h ⊢
    split at h
    · exact Host.Outcome.next.inj h ▸ rfl
    · split at h
      · rename_i ho
        rw [if_pos ho]
        exact Host.Outcome.next.inj h ▸ rfl
      · rename_i ho
        rw [if_neg ho]
        exact Host.Outcome.next.inj h ▸ rfl
  case decode =>
    revert h
    show execDecode s = .next t → execDecode (withInputs xs s) = _
    unfold execDecode
    rw [withInputs_din, withInputs_dinLen]
    rcases decodeFrame Config.armFlagBit s.din s.dinLen with (_ | _ | _) | ⟨c, f⟩ <;>
      exact fun h => Host.Outcome.next.inj h ▸ rfl
  case msgBegin =>
    revert h
    show execMsgBegin s = .next t → execMsgBegin (withInputs xs s) = _
    by_cases ho : s.msgOpen = true
    · exact fun h => (if_pos ho).trans (Host.Outcome.next.inj ((if_pos ho).symm.trans h) ▸ rfl)
    · exact fun h => (if_neg ho).trans (Host.Outcome.next.inj ((if_neg ho).symm.trans h) ▸ rfl)
  case msgField k a =>
    revert h
    show execMsgField k a s = .next t → execMsgField k a (withInputs xs s) = _
    by_cases ho : s.msgOpen = true
    · intro h
      refine (if_pos ho).trans ?_
      replace h := (if_pos ho).symm.trans h
      split at h
      · unfold stageField at h ⊢
        split at h
        · rename_i hc
          rw [if_pos hc]
          exact Host.Outcome.next.inj h ▸ rfl
        · rename_i hc
          rw [if_neg hc]
          exact Host.Outcome.next.inj h ▸ rfl
      · exact Host.Outcome.next.inj h ▸ rfl
      · exact Host.Outcome.next.inj h ▸ rfl
    · exact fun h => (if_neg ho).trans (Host.Outcome.next.inj ((if_neg ho).symm.trans h) ▸ rfl)
  case msgCommit =>
    revert h
    show execMsgCommit s = .next t → execMsgCommit (withInputs xs s) = _
    by_cases ho : s.msgOpen = true
    · exact fun h => (if_pos ho).trans (Host.Outcome.next.inj ((if_pos ho).symm.trans h) ▸ rfl)
    · exact fun h => (if_neg ho).trans (Host.Outcome.next.inj ((if_neg ho).symm.trans h) ▸ rfl)
  all_goals exact Host.Outcome.next.inj h ▸ rfl

end Sys2Proof.Machine
end

