-- ==== Sys2Proof/Laws/PerInstr.lean ====
section
/-!
SUPPORT. The words of the instructions, per instruction: the four fields of `encode i` (30_encoding.md R70, R73, R75), and that its row
selects the word exactly when the instruction is well-formed (R74).
-/

namespace Sys2Proof.Laws.EncodeFields

/-- The word of `i` carries its opcode, its operand fields and `RSV` 0, and its row selects it exactly when `i` is well-formed. -/
def Statement (i : Instr) : Prop :=
  argField (encode i) = i.arg ∧ opField (encode i) = i.mnemonic.row.op ∧ idxField (encode i) = i.idx ∧
    rsvField (encode i) = 0#16 ∧ i.mnemonic.row.selects (encode i) = i.wellFormed

/-- The fields need no case of `i`; what is left is the fixed-zero bits of its form. -/
theorem of_fixedBits (i : Instr)
    (h : (i.arg &&& argField i.mnemonic.row.form.mask = 0#32 ∧ i.idx &&& idxField i.mnemonic.row.form.mask = 0#8) ↔
      i.wellFormed = true) : Statement i := by
  refine ⟨?_, ?_, ?_, ?_, ?_⟩
  · simp [encode]
  · simp [encode]
  · simp [encode]
  · simp [encode]
  · rw [Bool.eq_iff_iff, selects_iff, ← h]
    simp [encode]

theorem idx_free (idx : Byte) : idx &&& idxField Form.I.mask = 0#8 := by
  rw [show idxField Form.I.mask = 0#8 by decide, BitVec.and_zero]

theorem idx_free_IA (idx : Byte) : idx &&& idxField Form.IA.mask = 0#8 := by
  rw [show idxField Form.IA.mask = 0#8 by decide, BitVec.and_zero]

theorem arg_free (arg : Arg) : arg &&& argField Form.IA.mask = 0#32 := by
  rw [show argField Form.IA.mask = 0#32 by decide, BitVec.and_zero]

/-- A form with no fixed-zero bit among its operands: every instruction of it is well-formed. -/
theorem of_free {i : Instr} (ha : i.arg &&& argField i.mnemonic.row.form.mask = 0#32)
    (hi : i.idx &&& idxField i.mnemonic.row.form.mask = 0#8) (hw : i.wellFormed = true) : Statement i :=
  of_fixedBits i ⟨fun _ => hw, fun _ => ⟨ha, hi⟩⟩

theorem nop : Statement .nop := of_free (by decide) (by decide) rfl

theorem chGet (idx : Byte) : Statement (.chGet idx) := of_free (BitVec.zero_and) (idx_free idx) rfl

theorem chSet (idx : Byte) (arg : Arg) : Statement (.chSet idx arg) := of_free (arg_free arg) (idx_free_IA idx) rfl

theorem armGet : Statement .armGet := of_free (by decide) (by decide) rfl

theorem snapshot : Statement .snapshot := of_free (by decide) (by decide) rfl

theorem snapGet (idx : Byte) : Statement (.snapGet idx) := of_free (BitVec.zero_and) (idx_free idx) rfl

theorem snapArmGet : Statement .snapArmGet := of_free (by decide) (by decide) rfl

theorem encode : Statement .encode := of_free (by decide) (by decide) rfl

theorem foutGet (idx : Byte) : Statement (.foutGet idx) := of_free (BitVec.zero_and) (idx_free idx) rfl

theorem dinClear : Statement .dinClear := of_free (by decide) (by decide) rfl

theorem dinPush (arg : Arg) : Statement (.dinPush arg) :=
  of_fixedBits _ ⟨fun h => (byteArgOk_iff arg).mpr h.1, fun h => ⟨(byteArgOk_iff arg).mp h, BitVec.zero_and⟩⟩

theorem decode : Statement .decode := of_free (by decide) (by decide) rfl

theorem decGet (idx : Byte) : Statement (.decGet idx) := of_free (BitVec.zero_and) (idx_free idx) rfl

theorem decFlagsGet : Statement .decFlagsGet := of_free (by decide) (by decide) rfl

theorem msgBegin : Statement .msgBegin := of_free (by decide) (by decide) rfl

theorem msgField (idx : Byte) (arg : Arg) : Statement (.msgField idx arg) := of_free (arg_free arg) (idx_free_IA idx) rfl

theorem msgCommit : Statement .msgCommit := of_free (by decide) (by decide) rfl

theorem msgAbort : Statement .msgAbort := of_free (by decide) (by decide) rfl

theorem txEnable (arg : Arg) : Statement (.txEnable arg) :=
  of_fixedBits _ ⟨fun h => (flagArgOk_iff arg).mpr h.1, fun h => ⟨(flagArgOk_iff arg).mp h, BitVec.zero_and⟩⟩

theorem txfGet (idx : Byte) : Statement (.txfGet idx) := of_free (BitVec.zero_and) (idx_free idx) rfl

theorem statusGet : Statement .statusGet := of_free (by decide) (by decide) rfl

theorem faultGet : Statement .faultGet := of_free (by decide) (by decide) rfl

end Sys2Proof.Laws.EncodeFields
end

