-- ==== Sys2Proof/Laws/Step.lean ====
section
/-!
SUPPORT. What an agent's step can do, said once, and how runs unfold.
-/

namespace Sys2Proof.Machine

/-! ## HOST's step -/

theorem hostStep_of_illegal {w : CmdWord} (h : decode w = none) (s : State) :
    hostStep w s = .next (raise (.illegalCommand w) (advancePc s)) := by
  rw [hostStep, h]
  rfl

theorem hostStep_of_some {w : CmdWord} {i : Instr} (h : decode w = some i) (s : State) :
    hostStep w s = .next (resultOf i (advancePc s)) := by
  rw [hostStep, h]
  exact exec_eq_resultOf i _

theorem agentStep_next (x : Input) (s : State) : ∃ t, agentStep x s = .next t := by
  cases x
  case command w =>
    cases h : decode w with
    | none => exact ⟨_, hostStep_of_illegal h s⟩
    | some i => exact ⟨_, hostStep_of_some h s⟩
  all_goals exact ⟨_, rfl⟩

theorem agentStep_eq_takeStep (x : Input) (s : State) : agentStep x s = .next (takeStep x s) := by
  obtain ⟨t, h⟩ := agentStep_next x s
  simp [takeStep, h]

theorem takeStep_of_illegal {w : CmdWord} (h : decode w = none) (s : State) :
    takeStep (.command w) s = raise (.illegalCommand w) (advancePc s) :=
  Host.Outcome.next.inj ((agentStep_eq_takeStep _ s).symm.trans (hostStep_of_illegal h s))

theorem takeStep_of_some {w : CmdWord} {i : Instr} (h : decode w = some i) (s : State) :
    takeStep (.command w) s = resultOf i (advancePc s) :=
  Host.Outcome.next.inj ((agentStep_eq_takeStep _ s).symm.trans (hostStep_of_some h s))

/-! ## What a step can do -/

/-- What an agent's step can do: a command's effect, an illegal word's error path, or one of the engine's and the reset's. -/
inductive Took (s : State) : Input → State → Prop where
  | illegal (w : CmdWord) (h : decode w = none) : Took s (.command w) (raise (.illegalCommand w) (advancePc s))
  | command (w : CmdWord) (i : Instr) (h : decode w = some i) (t : State) (he : Effect (advancePc s) i t) :
      Took s (.command w) t
  | tickIgnored (h : s.txEn = false) : Took s .tick s
  | overrun (h : s.txEn = true) (hp : s.tickPending = true) :
      Took s .tick (emit .tickOverrun (recordFault overrunBit s))
  | latched (h : s.txEn = true) (hp : s.tickPending = false) : Took s .tick { s with tickPending := true }
  | startPassed (h : startEnabled s = false) : Took s .start s
  | started (h : startEnabled s = true) :
      Took s .start
        { s with
          tickPending := false
          txbuf := encodeFrame Config.armFlagBit (published s)
          txState := .transmitting }
  | handoffPassed (r : Answer) (h : s.txState = .idle) : Took s (.handoff r) s
  | delivered (h : s.txState = .transmitting) :
      Took s (.handoff .ok) { s with wire := s.wire ++ [s.txbuf], txState := .idle }
  | failed (h : s.txState = .transmitting) :
      Took s (.handoff .fail) { s with events := s.events ++ [.transportFailure], txState := .idle }
  | reset : Took s .reset (applyReset s)

/-- The inversion lemma of an agent's step. -/
theorem takeStep_took (x : Input) (s : State) : Took s x (takeStep x s) := by
  cases x
  case command w =>
    cases h : decode w with
    | none =>
      rw [takeStep_of_illegal h]
      exact .illegal w h
    | some i =>
      rw [takeStep_of_some h]
      exact .command w i h _ (exec_effect i _)
  case tick =>
    show Took s .tick (tickStep s)
    unfold tickStep
    split
    · rename_i he
      split
      · rename_i hp
        exact .overrun he hp
      · rename_i hp
        exact .latched he (by simpa using hp)
    · rename_i he
      exact .tickIgnored (by simpa using he)
  case start =>
    show Took s .start (startStep s)
    unfold startStep
    split
    · rename_i he
      exact .started he
    · rename_i he
      exact .startPassed (by simpa using he)
  case handoff r =>
    show Took s (.handoff r) (handoffStep r s)
    unfold handoffStep handoffEnabled
    cases h : s.txState with
    | idle => exact .handoffPassed r h
    | transmitting =>
      cases r with
      | ok => exact .delivered h
      | fail => exact .failed h
  case reset => exact .reset

/-! ## The steps to come play no part in a step -/

theorem withInputs_ite (c : Prop) [Decidable c] (xs : List Input) (s t : State) :
    (if c then withInputs xs s else withInputs xs t) = withInputs xs (if c then s else t) :=
  (apply_ite (withInputs xs) c s t).symm

theorem takeStep_withInputs (x : Input) (s : State) (xs : List Input) :
    takeStep x (withInputs xs s) = withInputs xs (takeStep x s) := by
  cases x
  case command w =>
    cases h : decode w with
    | none => rw [takeStep_of_illegal h, takeStep_of_illegal h]; rfl
    | some i =>
      rw [takeStep_of_some h, takeStep_of_some h]
      exact resultOf_eq (exec_withInputs i (advancePc s) xs (exec_eq_resultOf i _))
  case tick =>
    show tickStep _ = withInputs xs (tickStep s)
    by_cases he : s.txEn = true
    · refine (if_pos he).trans (.trans ?_ (congrArg (withInputs xs) (if_pos he)).symm)
      exact withInputs_ite (s.tickPending = true) xs (emit .tickOverrun (recordFault overrunBit s)) { s with tickPending := true }
    · exact (if_neg he).trans (congrArg (withInputs xs) (if_neg he)).symm
  case start =>
    exact withInputs_ite (startEnabled s = true) xs { s with
      tickPending := false, txbuf := encodeFrame Config.armFlagBit (published s), txState := .transmitting } s
  case handoff r =>
    cases r with
    | ok => exact withInputs_ite (handoffEnabled s = true) xs { deliver .ok s with txState := .idle } s
    | fail => exact withInputs_ite (handoffEnabled s = true) xs { deliver .fail s with txState := .idle } s
  case reset => rfl

/-- A step whose next input is `x`. -/
theorem step_cons {s : State} {x : Input} {xs : List Input} (h : s.inputs = x :: xs) :
    step s = .next (withInputs xs (takeStep x s)) := by
  have hd : dropInput s = withInputs xs s := by rw [dropInput, h]; rfl
  rw [step, nextStep, h]
  show agentStep x (dropInput s) = _
  rw [hd, agentStep_eq_takeStep, takeStep_withInputs]

theorem step_nil {s : State} (h : s.inputs = []) : step s = .next s := by
  rw [step, nextStep, h]

/-! ## Runs -/

@[simp] theorem runOf_nil (s : State) : runOf [] s = s := rfl

@[simp] theorem runOf_cons (x : Input) (xs : List Input) (s : State) : runOf (x :: xs) s = runOf xs (takeStep x s) := rfl

theorem runOf_append (xs ys : List Input) (s : State) : runOf (xs ++ ys) s = runOf ys (runOf xs s) := by
  induction xs generalizing s with
  | nil => rfl
  | cons x xs ih => exact ih (takeStep x s)

/-- A property every step of a list keeps holds after the list. -/
theorem runOf_keeps {P : State → Prop} {xs : List Input} {s : State} (h : ∀ x ∈ xs, ∀ t, P t → P (takeStep x t))
    (hs : P s) : P (runOf xs s) := by
  induction xs generalizing s with
  | nil => exact hs
  | cons x xs ih =>
    exact ih (fun y hy => h y (List.mem_cons_of_mem _ hy)) (h x List.mem_cons_self s hs)

theorem run_succ (M : Host.Core) (k : Nat) (s t : M.State) (h : M.step s = .next t) : M.run (k + 1) s = M.run k t := by
  rw [Host.Core.run, h]

end Sys2Proof.Machine
end

