-- ==== Sys2Proof/Laws/Stop.lean ====
section
/-!
SUPPORT. The loop of `STOP` (30_encoding.md R80): the commands HOST issues for the answers it has had, and one turn of the loop.
-/

namespace Sys2Proof.Machine

/-- STATUS bit 1 is `TX_STATE` (R34). -/
theorem statusWord_txState (s : State) : (statusWord s).getLsbD 1 = s.txState.bit := by
  simp only [statusWord, BitVec.getLsbD_append]
  simp

theorem takeStep_statusGet (s : State) :
    takeStep (issue .statusGet) s = respond okCode (statusWord s) (advancePc s) :=
  (takeStep_of_some (i := .statusGet) (by decide) s).trans (resultOf_eq rfl)

theorem stopDone_iff (d : BitVec 32) : stopDone d = true ↔ d.getLsbD 1 = false := by
  simp only [stopDone, Bool.not_eq_true']

/-- While every answer has bit 1 set, one more `STATUS_GET` than answers is issued. -/
theorem pollUntilIdle_busy {answers : List (BitVec 32)} (h : ∀ d ∈ answers, stopDone d = false) :
    pollUntilIdle answers = List.replicate (answers.length + 1) .statusGet := by
  induction answers with
  | nil => rfl
  | cons d rest ih =>
    rw [pollUntilIdle, h d List.mem_cons_self, ih fun e he => h e (List.mem_cons_of_mem _ he)]
    rfl

/-- The first answer with bit 1 clear ends the loop, whatever would come after it. -/
theorem pollUntilIdle_done {answers later : List (BitVec 32)} {d : BitVec 32} (h : ∀ d ∈ answers, stopDone d = false)
    (hd : stopDone d = true) :
    pollUntilIdle (answers ++ d :: later) = List.replicate (answers.length + 1) .statusGet := by
  induction answers with
  | nil =>
    rw [List.nil_append, pollUntilIdle, hd]
    rfl
  | cons e rest ih =>
    rw [List.cons_append, pollUntilIdle, h e List.mem_cons_self, if_neg Bool.false_ne_true,
      ih fun e he => h e (List.mem_cons_of_mem _ he)]
    rfl

/-- A turn of the loop while every answer has bit 1 set: the other agents' steps, then one `STATUS_GET`. -/
theorem stopLoop_busy {answers : List (BitVec 32)} (h : ∀ d ∈ answers, stopDone d = false) (turn : List Input)
    (rest : List (List Input)) (s : State) :
    stopLoop (turn :: rest) answers s =
      stopLoop rest (answers ++ [statusWord (runOf turn s)])
        (respond okCode (statusWord (runOf turn s)) (advancePc (runOf turn s))) := by
  have hi : (Pseudo.stop.expand answers)[answers.length + 1]? = some .statusGet := by
    simp [Pseudo.expand, pollUntilIdle_busy h]
  rw [stopLoop, hi]
  simp only [takeStep_statusGet, respond_respData]

/-- After the answer that ends the loop HOST issues nothing more. -/
theorem stopLoop_done {answers : List (BitVec 32)} {d : BitVec 32} (h : ∀ d ∈ answers, stopDone d = false)
    (hd : stopDone d = true) (turns : List (List Input)) (s : State) :
    stopLoop turns (answers ++ [d]) s = (s, answers ++ [d]) := by
  cases turns with
  | nil => rfl
  | cons turn rest =>
    have hi : (Pseudo.stop.expand (answers ++ [d]))[(answers ++ [d]).length + 1]? = none := by
      simp [Pseudo.expand, pollUntilIdle_done h hd]
    rw [stopLoop, hi]

end Sys2Proof.Machine
end

