-- ==== Sys2Proof/Tests/Slice0.lean ====
section
/-!
SUPPORT. Tests of the model, each of one step or one function, and a witness for the hypotheses of each statement. The expected values
are those of 95_test_vectors.md and 30_encoding.md, named in each comment.
-/

namespace Sys2Proof.Tests

open Sys2Proof Sys2Proof.Machine

/-! ## Small states -/

/-- The state after one HOST command word. -/
def after (w : CmdWord) (s : State) : State := takeStep (.command w) s

/-- What HOST sees of a command. -/
def resp (s : State) : Byte × BitVec 32 := (s.respCode, s.respData)

/-- A message is open. -/
def opened : State := { State.reset with msgOpen := true }

/-- The first six values of vector L1.1, the other channels 0. -/
def refChannels : Channels :=
  #v[992#11, 1800#11, 172#11, 1700#11, 1800#11, 1500#11, 0#11, 0#11, 0#11, 0#11, 0#11, 0#11, 0#11, 0#11, 0#11, 0#11]

/-- The 25 bytes of vector L1.1. -/
def refFrame : Frame :=
  #v[0x0F#8, 0xE0#8, 0x43#8, 0x38#8, 0x2B#8, 0x48#8, 0x8D#8, 0x70#8, 0xEE#8, 0x02#8, 0#8, 0#8, 0#8, 0#8, 0#8, 0#8, 0#8, 0#8, 0#8,
    0#8, 0#8, 0#8, 0#8, 0#8, 0#8]

/-- The all-992 frame `F992` of 95_test_vectors.md section 2.5. -/
def f992 : Frame :=
  #v[0x0F#8, 0xE0#8, 0x03#8, 0x1F#8, 0xF8#8, 0xC0#8, 0x07#8, 0x3E#8, 0xF0#8, 0x81#8, 0x0F#8, 0x7C#8, 0xE0#8, 0x03#8, 0x1F#8, 0xF8#8,
    0xC0#8, 0x07#8, 0x3E#8, 0xF0#8, 0x81#8, 0x0F#8, 0x7C#8, 0x00#8, 0x00#8]

/-- The reference frame has been pushed. -/
def loaded : State := { State.reset with din := refFrame, dinLen := 25#8 }

/-- Transmission is enabled and a tick is pending. -/
def pending : State := { State.reset with txEn := true, tickPending := true }

/-- A frame is being handed off. -/
def sending : State := { State.reset with txEn := true, txState := .transmitting, txbuf := f992 }

/-! ## WellFormed: each check refuses an ill-formed term (R72) -/

theorem test_wf_byte_max : (Instr.dinPush 0xFF#32).wellFormed = true := by decide
theorem test_wf_byte_refused : (Instr.dinPush 0x100#32).wellFormed = false := by decide
theorem test_wf_flag_one : (Instr.txEnable 1#32).wellFormed = true := by decide
theorem test_wf_flag_refused : (Instr.txEnable 2#32).wellFormed = false := by decide
theorem test_wf_any_index : (Instr.chGet 255#8).wellFormed = true := by decide

/-! ## Decoding: the words of R75 and of 95_test_vectors.md sections 2 and 3 -/

theorem test_decode_nop : decode 0x0000000000000000#64 = some .nop := by decide
theorem test_decode_chGet : decode 0x0000000001100000#64 = some (.chGet 16#8) := by decide
theorem test_decode_chSet : decode 0xFFFFFFFF02030000#64 = some (.chSet 3#8 0xFFFFFFFF#32) := by decide
theorem test_decode_armGet : decode 0x0000000003000000#64 = some .armGet := by decide
theorem test_decode_snapshot : decode 0x0000000004000000#64 = some .snapshot := by decide
theorem test_decode_snapGet : decode 0x0000000005010000#64 = some (.snapGet 1#8) := by decide
theorem test_decode_snapArmGet : decode 0x0000000006000000#64 = some .snapArmGet := by decide
theorem test_decode_encode : decode 0x0000000008000000#64 = some .encode := by decide
theorem test_decode_foutGet : decode 0x0000000009170000#64 = some (.foutGet 23#8) := by decide
theorem test_decode_dinClear : decode 0x000000000A000000#64 = some .dinClear := by decide
theorem test_decode_dinPush : decode 0x000000FF0B000000#64 = some (.dinPush 0xFF#32) := by decide
theorem test_decode_decode : decode 0x000000000C000000#64 = some .decode := by decide
theorem test_decode_decGet : decode 0x000000000D020000#64 = some (.decGet 2#8) := by decide
theorem test_decode_decFlagsGet : decode 0x000000000E000000#64 = some .decFlagsGet := by decide
theorem test_decode_msgBegin : decode 0x0000000010000000#64 = some .msgBegin := by decide
theorem test_decode_msgField : decode 0x8000000011100000#64 = some (.msgField 16#8 0x80000000#32) := by decide
theorem test_decode_msgCommit : decode 0x0000000012000000#64 = some .msgCommit := by decide
theorem test_decode_msgAbort : decode 0x0000000013000000#64 = some .msgAbort := by decide
theorem test_decode_txEnable : decode 0x0000000118000000#64 = some (.txEnable 1#32) := by decide
theorem test_decode_txfGet : decode 0x0000000019010000#64 = some (.txfGet 1#8) := by decide
theorem test_decode_statusGet : decode 0x000000001E000000#64 = some .statusGet := by decide
theorem test_decode_faultGet : decode 0x000000001F000000#64 = some .faultGet := by decide

/-- The illegal words of section 2.1. -/
theorem test_decode_illegal :
    [0x0000000000010000#64, 0x0000000100000000#64, 0x0000000007000000#64, 0x000000000F000000#64, 0x0000000020000000#64,
      0x00000000FF000000#64, 0x0000000001000001#64, 0x0000000101000000#64, 0x000001000B000000#64, 0x0000000218000000#64].map decode =
      List.replicate 10 none := by decide

/-- R55: least significant byte first. -/
theorem test_bus_bytes : wordOfBusBytes (busBytes 8 0x000003E802020000#64) = some 0x000003E802020000#64 := by decide
theorem test_bus_first_byte : busBytes 4 0x12345678#32 = [0x78#8, 0x56#8, 0x34#8, 0x12#8] := by decide

/-- The table word as the host places it, decoded and run first after reset (log 10, log 16). -/
theorem test_table_word : decodeTableWord 64 0x000003E802020000 = some (.chSet 2#8 1000#32) := by decide
theorem test_fetch_word : step (State.reset.withFetchWord 64 0x000003E802020000) =
    .next { State.reset with cur := State.reset.cur.set 2 1000#11, pc := 1 } := by rfl

/-! ## Frames: L1.1, sections 2.2 and 2.3 -/

theorem test_encode_reference : encodeFrame 0 ⟨refChannels, false⟩ = refFrame := by decide
theorem test_encode_reset : encodeFrame 0 (published State.reset) = f992 := by decide
/-- `[0, 0, 2047, 0 × 13]`: a channel over three bytes. -/
theorem test_encode_three_bytes :
    (encodeFrame 0 ⟨(Vector.replicate 16 0#11).set 2 2047#11, true⟩).toList.take 6 = [0x0F#8, 0#8, 0#8, 0xC0#8, 0xFF#8, 0x01#8] := by
  decide
/-- Section 2.3: byte 23 = 0x02 leaves `DEC_ARM` 0 and is kept. -/
theorem test_decode_flags_kept :
    decodeFrame 0 (refFrame.set 23 0x02#8) 25#8 = .decoded ⟨refChannels, false⟩ 0x02#8 := by decide
theorem test_pack_pads_high_bits : packLe [(1, 3), (5, 7)] = [0x29#8, 0x00#8] := by decide

/-! ## ChannelState commands: section 2.4 -/

theorem test_chGet_last : resp (after 0x00000000010F0000#64 State.reset) = (0#8, 0x3E0#32) := by decide
theorem test_chGet_out_of_range : (resp (after 0x0000000001100000#64 State.reset),
    (after 0x0000000001100000#64 State.reset).events) = ((1#8, 0#32), [.contract (.indexOutOfRange 16#8)]) := by decide
theorem test_chSet_upper_bound : (after 0x000007FF02010000#64 State.reset).cur = State.reset.cur.set 1 2047#11 := by decide
theorem test_chSet_index_first : resp (after 0x0000138802100000#64 State.reset) = (1#8, 0#32) := by decide
theorem test_armGet : resp (after 0x0000000003000000#64 { State.reset with arm := true }) = (0#8, 1#32) := by decide
theorem test_snapshot : (after 0x0000000004000000#64 State.reset).snap = Vector.replicate 16 992#11 := by decide
theorem test_snapGet_reset_zero : resp (after 0x0000000005000000#64 State.reset) = (0#8, 0#32) := by decide
theorem test_snapArmGet : resp (after 0x0000000006000000#64 { State.reset with snapArm := true }) = (0#8, 1#32) := by decide

/-! ## FrameCodec commands: sections 2.2 and 2.3 -/

/-- From reset `ENCODE` encodes `SNAP`, all 0, not `CUR`. -/
theorem test_encode_uses_snapshot : (after 0x0000000008000000#64 State.reset).fout =
    (Vector.replicate 25 0#8).set 0 0x0F#8 := by decide
theorem test_foutGet_past_end : resp (after 0x0000000009190000#64 State.reset) = (1#8, 0#32) := by decide
theorem test_dinClear_keeps_bytes : (after 0x000000000A000000#64 loaded).din = refFrame ∧
    (after 0x000000000A000000#64 loaded).dinLen = 0#8 := by decide
theorem test_dinPush_last_place : (after 0x000000FF0B000000#64 { loaded with dinLen := 24#8 }).din = refFrame.set 24 0xFF#8 := by decide
theorem test_dinPush_saturates : (after 0x000000FF0B000000#64 { loaded with dinLen := 255#8 }).dinLen = 255#8 ∧
    (after 0x000000FF0B000000#64 { loaded with dinLen := 255#8 }).din = refFrame := by decide
theorem test_decode_good : (after 0x000000000C000000#64 loaded).dec = refChannels := by decide
/-- BadHeader before BadFooter. -/
theorem test_decode_bad_header : resp (after 0x000000000C000000#64
    { loaded with din := (refFrame.set 0 0x0E#8).set 24 0x01#8 }) = (3#8, 0#32) := by decide
theorem test_decGet : resp (after 0x000000000D020000#64 { State.reset with dec := refChannels }) = (0#8, 172#32) := by decide
theorem test_decFlagsGet : resp (after 0x000000000E000000#64 { State.reset with decArm := true, decFlags := 0x0D#8 }) =
    (0#8, 0x10D#32) := by decide

/-! ## CommandIngestor commands: L1.4 to L1.6, section 2.4 -/

theorem test_msgBegin_clears : (after 0x0000000010000000#64 { State.reset with pmask := 7#16 }).pmask = 0#16 := by decide
theorem test_msgBegin_open : (after 0x0000000010000000#64 opened).events = [.contract (.sequenceError .msgBegin)] := by decide
theorem test_msgField_clamps : (resp (after 0x0000138811000000#64 opened), (after 0x0000138811000000#64 opened).events,
    (after 0x0000138811000000#64 opened).pval[0]) = ((0#8, 1#32), [.clamp 0#8 5000 2047#11], 2047#11) := by decide
theorem test_msgField_negative : (after 0xFFFFFFF611000000#64 opened).events = [.clamp 0#8 (-10) 0#11] := by decide
theorem test_msgCommit : (after 0x0000000012000000#64 { opened with pmask := 4#16, pval := refChannels }).cur =
    State.reset.cur.set 2 172#11 := by decide
theorem test_msgCommit_arm : (after 0x0000000012000000#64 { opened with arm := true, parmValid := true }).arm = false := by decide
theorem test_msgAbort : (after 0x0000000013000000#64 State.reset).events = [.parseFailure] ∧
    (after 0x0000000013000000#64 State.reset).faultReg = 0#32 := by decide

/-! ## TransmitScheduler: section 2.5 -/

/-- T5: disabling drops the pending tick; T9: enabling again keeps it. -/
theorem test_txEnable_zero : (after 0x0000000018000000#64 pending).tickPending = false := by decide
theorem test_txEnable_one : (after 0x0000000118000000#64 pending).tickPending = true := by decide
theorem test_txfGet : resp (after 0x0000000019020000#64 sending) = (0#8, 3#32) := by decide
/-- T1 and T3. -/
theorem test_tick_ignored : takeStep .tick State.reset = State.reset := by decide
theorem test_tick_overrun : (takeStep .tick pending).faultReg = 0x80#32 ∧ (takeStep .tick pending).events = [.tickOverrun] := by decide
/-- T2. -/
theorem test_start : (takeStep .start pending).txbuf = f992 ∧ (takeStep .start pending).txState = .transmitting := by decide
theorem test_handoff_ok : (takeStep (.handoff .ok) sending).wire = [f992] := by decide
/-- T7. -/
theorem test_handoff_fail : (takeStep (.handoff .fail) sending).events = [.transportFailure] ∧
    (takeStep (.handoff .fail) sending).wire = [] := by decide

/-! ## Control and status, reset: sections 2.1 and 2.6 -/

theorem test_nop_overwrites : resp (after 0#64 { State.reset with respCode := 1#8, faultReg := 1#32 }) = (0#8, 0#32) := by decide
theorem test_statusGet : resp (after 0x000000001E000000#64 { opened with txEn := true, pmask := 1#16 }) = (0#8, 0x10009#32) := by decide
theorem test_faultGet : resp (after 0x000000001F000000#64 { State.reset with faultReg := 3#32 }) = (0#8, 3#32) := by decide
theorem test_illegal : resp (after 0x0000000007000000#64 State.reset) = (7#8, 0#32) ∧
    (after 0x0000000007000000#64 State.reset).faultReg = 0x40#32 := by decide
theorem test_reset_cancels_handoff : (takeStep .reset sending).wire = [] ∧ (takeStep .reset sending).txState = .idle := by decide

/-! ## Assembler: R79, R80 -/

theorem test_asm_signed : assembleLine "MSG_FIELD roll, -10 ; comment".toList = some (.command (.msgField 0#8 0xFFFFFFF6#32)) := by
  decide
theorem test_asm_hex : assembleLine "DIN_PUSH 0x0F".toList = some (.command (.dinPush 15#32)) := by decide
theorem test_asm_out_of_range : assembleLine "CH_GET 256".toList = none := by decide
/-- L1.9: `APPLY` of `armed: 1, roll: 1500`. -/
theorem test_asm_apply :
    (assembleLine ("APPLY ".toList ++ [openBrace] ++ "armed: 1, roll: 1500".toList ++ [closeBrace])).map
        (fun s => match s with | .pseudo p => (p.expand []).map encode | .command _ => [] | .blank => []) =
      some [0x0000000010000000#64, 0x0000000111100000#64, 0x000005DC11000000#64, 0x0000000012000000#64] := by decide

/-! ## Witnesses: states and operands that meet each statement's hypotheses, each clause at the boundary values of its range -/

/-- `s` with one step to come. -/
def facing (x : Input) (s : State) : State := { s with inputs := [x] }

theorem witness_DecodeOfEncodeIsTheInstruction :
    (Instr.dinPush 255#32).wellFormed = true ∧ (Instr.txEnable 1#32).wellFormed = true ∧ Instr.nop.wellFormed = true := by decide

theorem witness_EncodeOfDecodeIsTheWord : decode 0xFFFFFFFFFFFFFFFF#64 = none ∧
    decode 0xFFFFFFFF11FF0000#64 = some (.msgField 0xFF#8 0xFFFFFFFF#32) := by decide

theorem witness_DecoderSelectsTheMatchingRow : Mnemonic.txfGet.row ∈ opcodeTable ∧
    0x0000000019180000#64 &&& Mnemonic.txfGet.row.form.mask = Mnemonic.txfGet.row.pattern := by decide

theorem witness_IllegalWordTakesTheErrorPath :
    (facing (.command 0x0000000007000000#64) State.reset).inputs = [.command 0x0000000007000000#64] ∧
      legalWord 0x0000000007000000#64 = false ∧ legalWord 0x000001000B000000#64 = false ∧ legalWord 0x0000000218000000#64 = false := by
  decide

theorem witness_StepRunsTheDecodedCommand :
    (facing (.command 0x0000000119000000#64) State.reset).inputs = [.command 0x0000000119000000#64] ∧
      (facing (.command 0x0000000019000000#64) State.reset).inputs = [.command 0x0000000019000000#64] ∧
      decode 0x0000000019000000#64 = some (.txfGet 0#8) := by decide

theorem witness_MachineRunsItsInputsInOrder : State.reset.inputs = [] := by decide

/-- The last index inside and the first outside, and the last index of all. -/
theorem witness_ChannelReadsReturnTheChannel :
    (15#8 : Byte).toNat < 16 ∧ 15 < (16#8 : Byte).toNat ∧ 15 < (255#8 : Byte).toNat := by decide

theorem witness_FrameReadsReturnTheByte :
    (24#8 : Byte).toNat < 25 ∧ 24 < (25#8 : Byte).toNat ∧ 24 < (255#8 : Byte).toNat := by decide

/-- Each clause of `CH_SET` at both ends of its range: the index, the values below, the values above, the values inside. -/
theorem witness_ChSetWritesOrRejects :
    (15 < (16#8 : Byte).toNat ∧ 15 < (255#8 : Byte).toNat) ∧
    ((0#8 : Byte).toNat ≤ 15 ∧ (15#8 : Byte).toNat ≤ 15) ∧
    ((0xFFFFFFFF#32 : Arg).toInt < 0 ∧ (0x80000000#32 : Arg).toInt < 0) ∧
    (2047 < (2048#32 : Arg).toInt ∧ 2047 < (0x7FFFFFFF#32 : Arg).toInt) ∧
    (0 ≤ (0#32 : Arg).toInt ∧ (0#32 : Arg).toInt ≤ 2047) ∧ (0 ≤ (2047#32 : Arg).toInt ∧ (2047#32 : Arg).toInt ≤ 2047) := by decide

/-- BadLength at 24 and 26 bytes, BadHeader and BadFooter alone and together, and a good frame. -/
theorem witness_DecodeChecksThenUnpacks :
    ({ loaded with dinLen := 24#8 } : State).dinLen ≠ 25#8 ∧ ({ loaded with dinLen := 26#8 } : State).dinLen ≠ 25#8 ∧
    (loaded.dinLen = 25#8 ∧ (refFrame.set 0 0x0E#8)[0] ≠ 0x0F#8) ∧
    ((refFrame.set 24 0x01#8)[0] = 0x0F#8 ∧ (refFrame.set 24 0x01#8)[24] ≠ 0x00#8) ∧
    (loaded.din[0] = 0x0F#8 ∧ loaded.din[24] = 0x00#8) := by decide

theorem witness_MsgBeginOpensOrFails : opened.msgOpen = true ∧ State.reset.msgOpen = false := by decide

/-- The field codes where the clauses meet. -/
theorem witness_MsgFieldStagesOneField : State.reset.msgOpen = false ∧ opened.msgOpen = true ∧
    (0#8 : Byte).toNat ≤ 15 ∧ (15#8 : Byte).toNat ≤ 15 ∧ (16#8 : Byte).toNat = 0x10 ∧ 0x11 ≤ (17#8 : Byte).toNat ∧
    0x11 ≤ (255#8 : Byte).toNat := by decide

theorem witness_MsgCommitAppliesEveryStagedField : State.reset.msgOpen = false ∧
    { opened with pmask := 0x8001#16 }.msgOpen = true := by decide

theorem witness_TickLatchesOrOverruns : (facing .tick State.reset).inputs = [.tick] ∧ (facing .tick State.reset).txEn = false ∧
    (facing .tick pending).inputs = [.tick] ∧ (facing .tick pending).tickPending = true ∧
    (facing .tick sending).inputs = [.tick] ∧ (facing .tick sending).txEn = true ∧ (facing .tick sending).tickPending = false := by
  decide

theorem witness_StartEncodesTheLiveChannelState : (facing .start pending).inputs = [.start] ∧
    (facing .start pending).txState = .idle ∧ (facing .start pending).tickPending = true ∧ (facing .start pending).txEn = true := by
  decide

theorem witness_HandoffDeliversOrReports : (facing (.handoff .ok) sending).inputs = [.handoff .ok] ∧
    (facing (.handoff .fail) sending).inputs = [.handoff .fail] ∧ sending.txState = .transmitting := by decide

theorem witness_DisabledEngineStepChangesNothing : (facing .start State.reset).inputs = [.start] ∧
    ¬((facing .start State.reset).txState = .idle ∧ (facing .start State.reset).tickPending = true ∧
      (facing .start State.reset).txEn = true) ∧
    (facing (.handoff .ok) State.reset).inputs = [.handoff .ok] ∧ (facing (.handoff .ok) State.reset).txState = .idle := by decide

theorem witness_ResetInputKeepsOnlyTheOutputs : (facing .reset sending).inputs = [.reset] := by decide

/-- Values that fill their widths, over a byte's edge. -/
theorem witness_UnpackInvertsPack : ∀ p ∈ [(7, 3), (2047, 11), (0, 0), (1, 1)], p.1 < 2 ^ p.2 := by decide

theorem witness_PackPlacesEveryBit : (∀ p ∈ [(7, 3), (2047, 11)], p.1 < 2 ^ p.2) ∧ 1 < [(7, 3), (2047, 11)].length ∧
    10 < ([(7, 3), (2047, 11)][1]).2 ∧ ([(7, 3), (2047, 11)].map Prod.snd).sum ≤ 14 := by decide

/-- Decoded frames on both sides of the equivalence: a flags byte that is `flags(A)` and one that is not. -/
theorem witness_FrameRoundTrip : decodeFrame 0 refFrame 25#8 = .decoded ⟨refChannels, false⟩ 0x00#8 ∧
    decodeFrame 0 (refFrame.set 23 0x0D#8) 25#8 = .decoded ⟨refChannels, true⟩ 0x0D#8 := by decide

/-- A message that gives channel 0 twice and the arm flag, and none for channel 1. -/
theorem witness_AppliedMessagePublishesItsLastValues : State.reset.msgOpen = false ∧
    lastValue 0 [(0#8, 100#32), (16#8, 1#32), (0#8, 200#32)] = some 200#32 ∧
    lastValue 1 [(0#8, 100#32), (16#8, 1#32), (0#8, 200#32)] = none ∧
    lastValue 0x10 [(0#8, 100#32), (16#8, 1#32), (0#8, 200#32)] = some 1#32 ∧ lastValue 0x10 [(0#8, 100#32)] = none := by decide

theorem witness_LastWriterOfAChannelWins : (15#8 : Byte).toNat < 16 ∧ { opened with pmask := 0x8000#16 }.msgOpen = true ∧
    ({ opened with pmask := 0x8000#16 } : State).pmask.getLsbD (15#8 : Byte).toNat = true ∧
    0 ≤ (2047#32 : Arg).toInt ∧ (2047#32 : Arg).toInt ≤ 2047 := by decide

theorem not_issues_of_ne {x : Input} {w : CmdWord} {i j : Instr} (hx : x = .command w) (hd : decode w = some i) (h : i ≠ j) :
    ¬issues x j := by
  rintro ⟨v, hv, hj⟩
  rw [hx] at hv
  cases hv
  exact h (Option.some.inj (hd.symm.trans hj))

theorem not_issues_of_step {x : Input} (h : ∀ w, x ≠ .command w) (i : Instr) : ¬issues x i :=
  fun ⟨w, hw, _⟩ => h w hw

/-- Channel 15 is named by no `CH_SET` of the steps, channel 0 is. -/
theorem witness_OpenMessageStaysOpen : opened.msgOpen = true ∧
    (∀ x ∈ [Input.tick, issue (.chSet 0#8 5#32)], x ≠ .reset ∧ ¬issues x .msgCommit ∧ ¬issues x .msgAbort) ∧
    ∀ x ∈ [Input.tick, issue (.chSet 0#8 5#32)], ∀ k a, issues x (.chSet k a) → k.toNat ≠ 15 := by
  have hd : decode (encode (.chSet 0#8 5#32)) = some (.chSet 0#8 5#32) := by decide
  refine ⟨rfl, fun x hx => ?_, fun x hx k a h => ?_⟩ <;> rcases List.mem_cons.mp hx with rfl | hx
  · exact ⟨by decide, not_issues_of_step (by simp) _, not_issues_of_step (by simp) _⟩
  · obtain rfl := List.mem_singleton.mp hx
    exact ⟨by decide, not_issues_of_ne rfl hd (by decide), not_issues_of_ne rfl hd (by decide)⟩
  · exact absurd h (not_issues_of_step (by simp) _)
  · obtain rfl := List.mem_singleton.mp hx
    obtain ⟨w, hw, hk⟩ := h
    cases hw
    cases Option.some.inj (hd.symm.trans hk)
    decide

/-- A state that meets the invariant while a tick is pending, and takes a step. -/
theorem witness_EveryStepKeepsTheInvariant :
    MachineInv (facing .start pending) ∧ ∃ t, step (facing .start pending) = .next t := by
  refine ⟨⟨by decide, by decide, by decide, by decide, by decide, by decide, by decide, fun h => ?_, fun f h => ?_, fun k hk h => ?_,
    by decide⟩, _, rfl⟩
  · exact absurd h (by decide)
  · exact absurd h (by simp [facing, pending, State.reset, State.resetWith])
  · refine absurd h ?_
    show ¬(0#32).getLsbD k = true
    simp

/-- Each clause's premise: a step, no reset, that changes the element. -/
theorem witness_EachElementHasOnlyItsWriters :
    (after 0x0000000002000000#64 State.reset).cur ≠ State.reset.cur ∧
    (after 0x0000000012000000#64 { opened with parm := true, parmValid := true }).arm ≠ opened.arm ∧
    (after 0x0000000004000000#64 State.reset).snap ≠ State.reset.snap ∧
    (after 0x0000000010000000#64 State.reset).msgOpen ≠ State.reset.msgOpen ∧
    (after 0x0000000511000000#64 opened).pmask ≠ opened.pmask ∧ (after 0x0000000511000000#64 opened).pval ≠ opened.pval ∧
    (after 0x0000000008000000#64 State.reset).fout ≠ State.reset.fout ∧
    (after 0x000000FF0B000000#64 State.reset).din ≠ State.reset.din ∧
    (after 0x000000000A000000#64 loaded).dinLen ≠ loaded.dinLen ∧
    (after 0x000000000C000000#64 loaded).dec ≠ loaded.dec ∧
    (after 0x0000000118000000#64 State.reset).txEn ≠ State.reset.txEn ∧
    (takeStep .start pending).txState ≠ pending.txState ∧ (takeStep .start pending).tickPending ≠ pending.tickPending ∧
    (takeStep .start pending).txbuf ≠ pending.txbuf ∧
    (after 0x0000000001000000#64 State.reset).respData ≠ State.reset.respData ∧
    (after 0x0000000007000000#64 State.reset).faultReg ≠ State.reset.faultReg ∧ (takeStep .tick pending).faultReg ≠ pending.faultReg := by
  decide

theorem witness_ErrorsArePrecise : ∃ t, hostStep 0x0000000001100000#64 State.reset = .next t ∧ t.respCode ≠ 0x00#8 :=
  ⟨_, rfl, by decide⟩

theorem witness_RepeatedCommandsBehaveAsStated : readsOnly (.decGet 16#8) = true ∧ repeatable .decode = true ∧
    ({ loaded with dinLen := 254#8 } : State).dinLen.toNat < 255 ∧
    (after 0x000000000D100000#64 State.reset).respCode ≠ 0x00#8 ∧ (after 0x000000000D0F0000#64 State.reset).respCode = 0x00#8 := by
  decide

theorem witness_OnlyCommitReadsTheStagedValues : ¬issues .start .msgCommit ∧ ¬issues (issue .snapshot) .msgCommit :=
  ⟨not_issues_of_step (by simp) _, not_issues_of_ne (i := .snapshot) rfl (by decide) (by decide)⟩

/-- Two states that differ, and differ only in stale registers. -/
theorem witness_StaleRegistersAreUnobservable :
    hideStale { State.reset with pval := refChannels, parm := true, din := refFrame } = hideStale State.reset ∧
      { State.reset with pval := refChannels, parm := true, din := refFrame } ≠ State.reset := by decide

/-- A pending tick waits beside an open message: the start of either clause is enabled. -/
theorem witness_MessageIsSeenWholeOrNotAtAll : { pending with msgOpen := true, pmask := 1#16 }.msgOpen = true ∧
    (∀ x ∈ [Input.tick], ¬writesChannelState x) ∧
    startEnabled (runOf [.tick] { pending with msgOpen := true, pmask := 1#16 }) = true ∧
    startEnabled (runOf (issue .msgCommit :: [.tick]) { pending with msgOpen := true, pmask := 1#16 }) = true := by
  refine ⟨rfl, fun x hx => ?_, by decide, by decide⟩
  obtain rfl := List.mem_singleton.mp hx
  rintro (h | h | ⟨k, a, h⟩)
  · exact absurd h (by decide)
  · exact not_issues_of_step (by simp) _ h
  · exact not_issues_of_step (by simp) _ h

/-- From an idle engine a frame does reach the wire. -/
theorem witness_WireFramesComeFromLiveChannelState : pending.txState = .idle ∧ (runOf [.start, .handoff .ok] pending).wire = [f992] := by
  decide

/-- Transmission enabled, nothing pending, nothing in progress. -/
def ready : State := { State.reset with txEn := true }

theorem witness_ServedTicksGiveOneHandoffEach : ready.txEn = true ∧ ready.tickPending = false ∧ ready.txState = .idle ∧
    ∀ r ∈ [(⟨[encode .msgBegin], [], [0x07000000#64], .ok⟩ : ServedTick), ⟨[], [encode (.txEnable 1#32)], [], .fail⟩], r.staysEnabled := by
  have keeps : ∀ w ∈ [encode .msgBegin, 0x07000000#64, encode (.txEnable 1#32)], keepsEnabled w := by
    intro w hw arg h
    simp only [List.mem_cons, List.not_mem_nil, or_false] at hw
    rcases hw with rfl | rfl | rfl
    · exact absurd (Option.some.inj ((show some Instr.msgBegin = _ by decide).trans h)) (by simp)
    · exact absurd ((show none = _ by decide : none = decode 0x07000000#64).trans h) (by simp)
    · have := Option.some.inj ((show some (Instr.txEnable 1#32) = _ by decide).trans h)
      cases this
      decide
  refine ⟨rfl, rfl, rfl, fun r hr => ?_⟩
  simp only [List.mem_cons, List.not_mem_nil, or_false] at hr
  rcases hr with rfl | rfl
  all_goals
    refine ⟨fun w hw => ?_, fun w hw => ?_, fun w hw => ?_⟩ <;>
      first
        | exact absurd hw List.not_mem_nil
        | (obtain rfl := List.mem_singleton.mp hw; exact keeps _ (by simp))

theorem witness_UnchangedStateIsSentEveryTick : ready.txEn = true ∧ ready.tickPending = false ∧ ready.txState = .idle := by decide

/-- TXE's turns and the transport's, one after the other for ever. -/
def turns (n : Nat) : Input := if n % 2 = 0 then .start else .handoff .ok

theorem turns_fair (s : State) : WeaklyFair turns s :=
  ⟨fun n _ => ⟨2 * n, by omega, by simp [turns]⟩, fun n _ => ⟨2 * n + 1, by omega, .ok, by simp [turns, Nat.add_mod]⟩⟩

theorem turns_no_command (n : Nat) (i : Instr) : ¬issues (turns n) i := by
  refine not_issues_of_step (fun w => ?_) i
  unfold turns
  split <;> simp

/-- Shutdown with a handoff in progress. -/
theorem witness_ShutdownEndsTransmission : WeaklyFair turns { sending with txEn := false } ∧
    (stateAt turns { sending with txEn := false } 0).txEn = false ∧
    (stateAt turns { sending with txEn := false } 0).txState = .transmitting ∧
    ∀ m arg, 0 ≤ m → issues (turns m) (.txEnable arg) → arg.getLsbD 0 = false :=
  ⟨turns_fair _, rfl, rfl, fun m _ _ h => absurd h (turns_no_command m _)⟩

/-- A tick pending while a handoff is in progress. -/
theorem witness_PendingTickIsEventuallyServed : WeaklyFair turns { sending with tickPending := true } ∧
    (stateAt turns { sending with tickPending := true } 0).txEn = true ∧
    (stateAt turns { sending with tickPending := true } 0).tickPending = true ∧ (∀ m, 0 ≤ m → turns m ≠ .reset) ∧
    ∀ m arg, 0 ≤ m → issues (turns m) (.txEnable arg) → arg.getLsbD 0 = true := by
  refine ⟨turns_fair _, rfl, rfl, fun m _ => ?_, fun m _ _ h => absurd h (turns_no_command m _)⟩
  unfold turns
  split <;> decide

/-- P4: an answer with bit 1 set brings another `STATUS_GET`, one with bit 1 clear ends `STOP`; the first is issued unasked. -/
theorem test_stop_polls : (Pseudo.stop.expand []).map encode = [0x0000000018000000#64, 0x000000001E000000#64] ∧
    (Pseudo.stop.expand [2#32]).length = 3 ∧ (Pseudo.stop.expand [2#32, 0#32]).length = 3 ∧
    (Pseudo.stop.expand [0#32]).length = 2 := by decide

/-- A handoff in progress, no answer in the first turn and Ok in the second: the loop asks twice, as in P4, and both clauses' answers
occur. -/
theorem witness_StopPollsUntilTheEngineIsIdle : (∀ turn ∈ [[Input.tick], [.handoff .ok], []], otherAgents turn) ∧
    (stopRun [[.tick], [.handoff .ok], []] sending).2 = [2#32, 0#32] ∧ (stopRun [[.tick]] sending).2 = [2#32] := by
  refine ⟨fun turn hturn x hx w => ?_, by decide, by decide⟩
  simp only [List.mem_cons, List.not_mem_nil, or_false] at hturn
  rcases hturn with rfl | rfl | rfl <;> simp only [List.mem_cons, List.not_mem_nil, or_false] at hx <;> simp [hx]

end Sys2Proof.Tests
end

section
/-!
Proofs of the statements about the state (10_state.md): the invariant under each operation, HOST's position, what a step reports, who
writes which element, and the bytes pushed into the decode buffer.
-/

namespace Sys2Proof.Machine

/-! ## The invariant under each shared operation -/

/-- The event that reports FAULT bit `j` is among the events (R192, R234). -/
def Reported (events : List Event) (j : Nat) : Prop :=
  (j < 7 ∧ ∃ e, Event.contract e ∈ events ∧ e.code.toNat = j + 1) ∨ (j = 7 ∧ Event.tickOverrun ∈ events)

theorem machineInv_withInputs {s : State} (h : MachineInv s) (xs : List Input) : MachineInv (withInputs xs s) := { h with }

theorem machineInv_advancePc {s : State} (h : MachineInv s) : MachineInv (advancePc s) := { h with }

theorem machineInv_respond {s : State} (h : MachineInv s) {code : Byte} {data : BitVec 32} (hc : code.toNat ≤ 7)
    (hf : code ≠ 0#8 → data = 0#32 ∧ s.faultReg.getLsbD (code.toNat - 1) = true) : MachineInv (respond code data s) :=
  { h with
    respCodeLegal := hc
    failedDataZero := fun hne => (hf hne).1
    failedBitSet := fun hne => (hf hne).2 }

theorem machineInv_respondOk {s : State} (h : MachineInv s) (data : BitVec 32) : MachineInv (respond okCode data s) :=
  machineInv_respond h (by decide) fun hne => absurd rfl hne

theorem machineInv_emit {s : State} (h : MachineInv s) (ev : Event) : MachineInv (emit ev s) :=
  { h with
    faultBitsReported := fun k hk hb =>
      let ⟨e, he, hc⟩ := h.faultBitsReported k hk hb
      ⟨e, List.mem_append_left _ he, hc⟩
    overrunReported := fun hb => List.mem_append_left _ (h.overrunReported hb) }

theorem machineInv_clearStaging {s : State} (h : MachineInv s) (opened : Bool) : MachineInv (clearStaging opened s) :=
  { h with closedNothingStaged := fun _ => ⟨rfl, rfl⟩ }

/-- The invariant says nothing of the published ChannelState. -/
theorem machineInv_withPublished {s : State} (h : MachineInv s) (cur : Channels) (arm : Bool) :
    MachineInv { s with cur := cur, arm := arm } := { h with }

theorem machineInv_applyStaged {s : State} (h : MachineInv s) : MachineInv (applyStaged s) :=
  machineInv_withPublished h _ _

theorem setFaultBit_getLsbD_iff (j : Nat) {k : Nat} (hk : k < 32) (f : BitVec 32) :
    (setFaultBit j f).getLsbD k = true ↔ f.getLsbD k = true ∨ k = j := by
  rw [setFaultBit_getLsbD j k f hk, Bool.or_eq_true, beq_iff_eq]

theorem setFaultBit_reserved {j : Nat} {f : BitVec 32} (hj : j < 8) (h : f.extractLsb' 8 24 = 0#24) :
    (setFaultBit j f).extractLsb' 8 24 = 0#24 := by
  refine BitVec.eq_of_getLsbD_eq fun k hk => ?_
  have hf : f.getLsbD (8 + k) = false := by
    simpa [hk] using congrArg (fun v => v.getLsbD k) h
  have hne : 8 + k ≠ j := by omega
  simp [setFaultBit_getLsbD j (8 + k) f (by omega), hf, hne]

theorem machineInv_recordFault {s : State} (h : MachineInv s) {j : Nat} (hr : Reported s.events j) :
    MachineInv (recordFault j s) := by
  have hj : j < 8 := by
    rcases hr with ⟨hj, -⟩ | ⟨hj, -⟩ <;> omega
  have hbit : ∀ k, k < 32 → ((recordFault j s).faultReg.getLsbD k = true ↔ s.faultReg.getLsbD k = true ∨ k = j) :=
    fun _ hk => setFaultBit_getLsbD_iff j hk s.faultReg
  have hcode : (recordFault j s).respCode.toNat ≤ 7 := h.respCodeLegal
  exact
    { h with
      reservedFaultBits := setFaultBit_reserved hj h.reservedFaultBits
      failedBitSet := fun hne => (hbit _ (by omega)).mpr (.inl (h.failedBitSet hne))
      faultBitsReported := fun k hk hb => by
        rcases (hbit k (by omega)).mp hb with hb | rfl
        · exact h.faultBitsReported k hk hb
        · rcases hr with ⟨-, he⟩ | ⟨rfl, -⟩
          · exact he
          · omega
      overrunReported := fun hb => by
        rcases (hbit 7 (by omega)).mp hb with hb | rfl
        · exact h.overrunReported hb
        · rcases hr with ⟨hlt, -⟩ | ⟨-, he⟩
          · omega
          · exact he }

/-- The error path keeps the invariant: the event is emitted, its bit recorded, and the response is the failure's (R234). -/
theorem machineInv_raise {s : State} (h : MachineInv s) (e : Contract) : MachineInv (raise e s) := by
  obtain ⟨h1, h7⟩ := code_bounds e
  have hr : Reported (emit (.contract e) s).events (e.code.toNat - 1) :=
    .inl ⟨by omega, e, List.mem_append_right _ List.mem_cons_self, by omega⟩
  refine machineInv_respond (machineInv_recordFault (machineInv_emit h (.contract e)) hr) h7 fun _ => ⟨rfl, ?_⟩
  exact (setFaultBit_getLsbD_iff _ (by omega) _).mpr (.inr rfl)

theorem reset_faultBit (k : Nat) : ¬State.reset.faultReg.getLsbD k = true := by
  show ¬(0#32).getLsbD k = true
  simp

theorem machineInv_reset : MachineInv State.reset where
  reservedFaultBits := by decide
  respCodeLegal := by decide
  failedDataZero := fun _ => rfl
  failedBitSet := fun hne => absurd rfl hne
  pendingOnlyEnabled := nofun
  closedNothingStaged := fun _ => ⟨rfl, rfl⟩
  decArmIsFlag := by decide
  sendingWholeFrame := nofun
  wireWholeFrames := fun _ hf => absurd hf List.not_mem_nil
  faultBitsReported := fun k _ hb => absurd hb (reset_faultBit k)
  overrunReported := fun hb => absurd hb (reset_faultBit 7)

/-! ## The invariant under each step -/

/-- A successful decode gives the arm bit of the flags byte it gives (R124). -/
theorem arm_of_decodeFrame {k : Fin 2} {buf : Frame} {n : Byte} {c : ChannelState} {fl : Byte}
    (h : decodeFrame k buf n = .decoded c fl) : c.arm = fl.getLsbD k.val := by
  unfold decodeFrame at h
  split_ifs at h
  cases h
  rfl

/-- Every command keeps the invariant: each effect but the error path ends with an OK response. -/
theorem machineInv_of_effect {s t : State} {i : Instr} (h : MachineInv s) (he : Effect s i t) : MachineInv t := by
  have staging : s.msgOpen = true → ¬s.msgOpen = false := fun ho hc => Bool.noConfusion (ho.symm.trans hc)
  cases he with
  | error _ e => exact machineInv_raise h e
  | reads | nop | ignores => exact machineInv_respondOk h _
  | chSet | snapshot | encode | dinClear | dinPush =>
    refine machineInv_respondOk ?_ _
    exact { h with }
  | decode c f hd =>
    refine machineInv_respondOk ?_ _
    exact { h with decArmIsFlag := arm_of_decodeFrame hd }
  | msgBegin => exact machineInv_respondOk (machineInv_clearStaging h true) _
  | stages _ _ ho | stagesArm _ ho =>
    refine machineInv_respondOk ?_ _
    exact { h with closedNothingStaged := fun hc => absurd hc (staging ho) }
  | clamps _ _ ho =>
    refine machineInv_respondOk (machineInv_emit ?_ _) _
    exact { h with closedNothingStaged := fun hc => absurd hc (staging ho) }
  | msgCommit => exact machineInv_respondOk (machineInv_clearStaging (machineInv_applyStaged h) false) _
  | msgAbort => exact machineInv_respondOk (machineInv_emit (machineInv_clearStaging h false) _) _
  | txEnable a =>
    refine machineInv_respondOk ?_ _
    exact { h with pendingOnlyEnabled := fun hp => (Bool.and_eq_true_iff.mp hp).1 }

/-- Every agent's step keeps the invariant. -/
theorem machineInv_of_took {s t : State} {x : Input} (h : MachineInv s) (ht : Took s x t) : MachineInv t := by
  cases ht with
  | illegal w => exact machineInv_raise (machineInv_advancePc h) _
  | command w i hd t he => exact machineInv_of_effect (machineInv_advancePc h) he
  | tickIgnored | startPassed | handoffPassed => exact h
  | overrun =>
    exact machineInv_recordFault (machineInv_emit h .tickOverrun)
      (.inr ⟨rfl, List.mem_append_right _ List.mem_cons_self⟩)
  | latched hen => exact { h with pendingOnlyEnabled := fun _ => hen }
  | started => exact { h with pendingOnlyEnabled := nofun, sendingWholeFrame := fun _ => ⟨published s, rfl⟩ }
  | delivered hs =>
    exact
      { h with
        sendingWholeFrame := nofun
        wireWholeFrames := fun f hf => (List.mem_append.mp hf).elim (h.wireWholeFrames f)
          fun hf => List.mem_singleton.mp hf ▸ h.sendingWholeFrame hs }
  | failed => exact { machineInv_emit h .transportFailure with sendingWholeFrame := nofun }
  | reset =>
    exact
      { machineInv_reset with
        wireWholeFrames := h.wireWholeFrames
        faultBitsReported := fun k _ hb => absurd hb (reset_faultBit k)
        overrunReported := fun hb => absurd hb (reset_faultBit 7) }

/-! ## HOST's position (R35) -/

theorem Effect.pc_eq {s t : State} {i : Instr} (h : Effect s i t) : t.pc = s.pc := by
  cases h <;> simp

theorem Took.pc_of_command {s t : State} {w : CmdWord} (h : Took s (.command w) t) : t.pc = s.pc + 1 := by
  cases h with
  | illegal => rfl
  | command _ i hd t he => exact he.pc_eq

/-- No step but HOST's moves HOST's position. -/
theorem Took.pc_of_no_command {s t : State} {x : Input} (h : Took s x t) (hx : ∀ w, x ≠ .command w) : t.pc = s.pc := by
  cases h with
  | illegal w | command w => exact absurd rfl (hx w)
  | _ => simp

/-! ## What a step reports -/

/-- FAULT after a step that reports an event, or none (R192, R234). -/
def faultAfter : Option Event → BitVec 32 → BitVec 32
  | some (.contract e), f => setFaultBit (e.code.toNat - 1) f
  | some .tickOverrun, f => setFaultBit overrunBit f
  | _, f => f

@[simp] theorem faultAfter_none (f : BitVec 32) : faultAfter none f = f := rfl

theorem Effect.reports {s t : State} {i : Instr} (h : Effect s i t) :
    ∃ o : Option Event, t.events = s.events ++ o.toList ∧ t.faultReg = faultAfter o s.faultReg := by
  cases h with
  | error _ e => exact ⟨some (.contract e), rfl, rfl⟩
  | clamps => exact ⟨some (.clamp _ _ _), rfl, rfl⟩
  | msgAbort => exact ⟨some .parseFailure, rfl, rfl⟩
  | _ => exact ⟨none, by simp, by simp⟩

/-- A step but reset reports at most one event, and FAULT takes the bit of that event and no other. -/
theorem Took.reports {s t : State} {x : Input} (h : Took s x t) (hx : x ≠ .reset) :
    ∃ o : Option Event, t.events = s.events ++ o.toList ∧ t.faultReg = faultAfter o s.faultReg := by
  cases h with
  | illegal w => exact ⟨some (.contract (.illegalCommand w)), rfl, rfl⟩
  | command w i hd t he => exact he.reports
  | overrun => exact ⟨some .tickOverrun, rfl, rfl⟩
  | failed => exact ⟨some .transportFailure, rfl, rfl⟩
  | reset => exact absurd rfl hx
  | _ => exact ⟨none, by simp, by simp⟩

/-- A bit of FAULT after a step: it was set, or the event reports it. -/
theorem faultAfter_getLsbD (o : Option Event) {k : Nat} (hk : k < 32) (f : BitVec 32) :
    (faultAfter o f).getLsbD k = true ↔ f.getLsbD k = true ∨ Reported o.toList k := by
  rcases o with _ | _ | _ | _ | _ | e
  case some.tickOverrun =>
    simp [faultAfter, setFaultBit_getLsbD_iff _ hk, Reported, overrunBit]
  case some.contract =>
    have hc := code_bounds e
    have hbit : k = e.code.toNat - 1 ↔ k < 7 ∧ e.code.toNat = k + 1 := by omega
    simp [faultAfter, setFaultBit_getLsbD_iff _ hk, Reported, hbit]
  all_goals simp [faultAfter, Reported]

/-! ## The wire -/

theorem Effect.wire_eq {s t : State} {i : Instr} (h : Effect s i t) : t.wire = s.wire := by
  cases h <;> simp

theorem Took.wire_cases {s t : State} {x : Input} (h : Took s x t) :
    t.wire = s.wire ∨ (x = .handoff .ok ∧ s.txState = .transmitting ∧ t.wire = s.wire ++ [s.txbuf]) := by
  cases h with
  | command w i hd t he => exact .inl he.wire_eq
  | delivered hs => exact .inr ⟨rfl, hs, rfl⟩
  | _ => simp

/-! ## Who writes which element (10_state.md section 1) -/

section Writers

variable {s t : State} {x : Input}

/-- Every element that only commands write keeps its value. -/
structure CommandElementsKept (s t : State) : Prop where
  cur : t.cur = s.cur
  arm : t.arm = s.arm
  snap : t.snap = s.snap
  snapArm : t.snapArm = s.snapArm
  msgOpen : t.msgOpen = s.msgOpen
  pmask : t.pmask = s.pmask
  pval : t.pval = s.pval
  parmValid : t.parmValid = s.parmValid
  parm : t.parm = s.parm
  fout : t.fout = s.fout
  din : t.din = s.din
  dinLen : t.dinLen = s.dinLen
  dec : t.dec = s.dec
  decArm : t.decArm = s.decArm
  decFlags : t.decFlags = s.decFlags
  txEn : t.txEn = s.txEn

/-- A step but reset that changed one of them is a legal command. -/
theorem Took.issued_of_not_kept (h : Took s x t) (hx : x ≠ .reset) (hne : ¬CommandElementsKept s t) :
    ∃ i, issues x i ∧ Effect (advancePc s) i t := by
  cases h with
  | command w i hd t he => exact ⟨i, ⟨w, rfl, hd⟩, he⟩
  | reset => exact absurd rfl hx
  | _ => exact absurd (by constructor <;> simp) hne

theorem Took.writer_of_cur (h : Took s x t) (hx : x ≠ .reset) (hne : t.cur ≠ s.cur) :
    issues x .msgCommit ∨ ∃ k a, issues x (.chSet k a) := by
  obtain ⟨i, hi, he⟩ := h.issued_of_not_kept hx fun he => hne he.cur
  cases he with
  | chSet k a => exact .inr ⟨k, a, hi⟩
  | msgCommit => exact .inl hi
  | _ => simp at hne

theorem Took.writer_of_arm (h : Took s x t) (hx : x ≠ .reset) (hne : t.arm ≠ s.arm) :
    issues x .msgCommit ∧ s.parmValid = true := by
  obtain ⟨i, hi, he⟩ := h.issued_of_not_kept hx fun he => hne he.arm
  cases he with
  | msgCommit => exact ⟨hi, of_not_not fun hv => hne (if_neg hv)⟩
  | _ => simp at hne

theorem Took.writer_of_snapshot (h : Took s x t) (hx : x ≠ .reset) (hne : t.snap ≠ s.snap ∨ t.snapArm ≠ s.snapArm) :
    issues x .snapshot := by
  obtain ⟨i, hi, he⟩ := h.issued_of_not_kept hx fun he =>
    hne.elim (absurd he.snap) (absurd he.snapArm)
  cases he with
  | snapshot => exact hi
  | _ => simp at hne

theorem Took.writer_of_msgOpen (h : Took s x t) (hx : x ≠ .reset) (hne : t.msgOpen ≠ s.msgOpen) :
    issues x .msgBegin ∨ issues x .msgCommit ∨ issues x .msgAbort := by
  obtain ⟨i, hi, he⟩ := h.issued_of_not_kept hx fun he => hne he.msgOpen
  cases he with
  | msgBegin => exact .inl hi
  | msgCommit => exact .inr (.inl hi)
  | msgAbort => exact .inr (.inr hi)
  | _ => simp at hne

theorem Took.writer_of_stagedMask (h : Took s x t) (hx : x ≠ .reset)
    (hne : t.pmask ≠ s.pmask ∨ t.parmValid ≠ s.parmValid) :
    issues x .msgBegin ∨ issues x .msgCommit ∨ issues x .msgAbort ∨ ∃ k a, issues x (.msgField k a) := by
  obtain ⟨i, hi, he⟩ := h.issued_of_not_kept hx fun he =>
    hne.elim (absurd he.pmask) (absurd he.parmValid)
  cases he with
  | msgBegin => exact .inl hi
  | msgCommit => exact .inr (.inl hi)
  | msgAbort => exact .inr (.inr (.inl hi))
  | stages | clamps | stagesArm => exact .inr (.inr (.inr ⟨_, _, hi⟩))
  | _ => simp at hne

theorem Took.writer_of_stagedValue (h : Took s x t) (hx : x ≠ .reset) (hne : t.pval ≠ s.pval ∨ t.parm ≠ s.parm) :
    ∃ k a, issues x (.msgField k a) := by
  obtain ⟨i, hi, he⟩ := h.issued_of_not_kept hx fun he =>
    hne.elim (absurd he.pval) (absurd he.parm)
  cases he with
  | stages | clamps | stagesArm => exact ⟨_, _, hi⟩
  | _ => simp at hne

theorem Took.writer_of_fout (h : Took s x t) (hx : x ≠ .reset) (hne : t.fout ≠ s.fout) : issues x .encode := by
  obtain ⟨i, hi, he⟩ := h.issued_of_not_kept hx fun he => hne he.fout
  cases he with
  | encode => exact hi
  | _ => simp at hne

theorem Took.writer_of_din (h : Took s x t) (hx : x ≠ .reset) (hne : t.din ≠ s.din) : ∃ a, issues x (.dinPush a) := by
  obtain ⟨i, hi, he⟩ := h.issued_of_not_kept hx fun he => hne he.din
  cases he with
  | dinPush a => exact ⟨a, hi⟩
  | _ => simp at hne

theorem Took.writer_of_dinLen (h : Took s x t) (hx : x ≠ .reset) (hne : t.dinLen ≠ s.dinLen) :
    issues x .dinClear ∨ ∃ a, issues x (.dinPush a) := by
  obtain ⟨i, hi, he⟩ := h.issued_of_not_kept hx fun he => hne he.dinLen
  cases he with
  | dinClear => exact .inl hi
  | dinPush a => exact .inr ⟨a, hi⟩
  | _ => simp at hne

theorem Took.writer_of_decoded (h : Took s x t) (hx : x ≠ .reset)
    (hne : t.dec ≠ s.dec ∨ t.decArm ≠ s.decArm ∨ t.decFlags ≠ s.decFlags) : issues x .decode := by
  obtain ⟨i, hi, he⟩ := h.issued_of_not_kept hx fun he =>
    hne.elim (absurd he.dec) fun hne => hne.elim (absurd he.decArm) (absurd he.decFlags)
  cases he with
  | decode => exact hi
  | _ => simp at hne

theorem Took.writer_of_txEn (h : Took s x t) (hx : x ≠ .reset) (hne : t.txEn ≠ s.txEn) :
    ∃ a, issues x (.txEnable a) := by
  obtain ⟨i, hi, he⟩ := h.issued_of_not_kept hx fun he => hne he.txEn
  cases he with
  | txEnable a => exact ⟨a, hi⟩
  | _ => simp at hne

/-! The engine's elements, FAULT and the response -/

/-- No command moves TXE or writes the frame it hands off. -/
theorem Effect.engine_eq {i : Instr} (h : Effect s i t) : t.txState = s.txState ∧ t.txbuf = s.txbuf := by
  cases h <;> simp

theorem Effect.writer_of_tickPending {i : Instr} (h : Effect s i t) (hne : t.tickPending ≠ s.tickPending) :
    ∃ a, i = .txEnable a := by
  cases h with
  | txEnable a => exact ⟨a, rfl⟩
  | _ => simp at hne

theorem Took.writer_of_txState (h : Took s x t) (hx : x ≠ .reset) (hne : t.txState ≠ s.txState) :
    x = .start ∨ ∃ r, x = .handoff r := by
  cases h with
  | command w i hd t he => exact absurd he.engine_eq.1 hne
  | started => exact .inl rfl
  | delivered | failed => exact .inr ⟨_, rfl⟩
  | reset => exact absurd rfl hx
  | _ => simp at hne

theorem Took.writer_of_tickPending (h : Took s x t) (hx : x ≠ .reset) (hne : t.tickPending ≠ s.tickPending) :
    x = .tick ∨ x = .start ∨ ∃ a, issues x (.txEnable a) := by
  cases h with
  | command w i hd t he =>
    obtain ⟨a, rfl⟩ := he.writer_of_tickPending hne
    exact .inr (.inr ⟨a, w, rfl, hd⟩)
  | latched => exact .inl rfl
  | started => exact .inr (.inl rfl)
  | reset => exact absurd rfl hx
  | _ => simp at hne

theorem Took.writer_of_txbuf (h : Took s x t) (hx : x ≠ .reset) (hne : t.txbuf ≠ s.txbuf) : x = .start := by
  cases h with
  | command w i hd t he => exact absurd he.engine_eq.2 hne
  | started => rfl
  | reset => exact absurd rfl hx
  | _ => simp at hne

theorem Took.writer_of_faultReg (h : Took s x t) (hx : x ≠ .reset) (hne : t.faultReg ≠ s.faultReg) :
    x = .tick ∨ ∃ w, x = .command w := by
  cases h with
  | illegal w | command w => exact .inr ⟨w, rfl⟩
  | overrun => exact .inl rfl
  | reset => exact absurd rfl hx
  | _ => simp at hne

theorem Took.writer_of_response (h : Took s x t) (hx : x ≠ .reset)
    (hne : t.respCode ≠ s.respCode ∨ t.respData ≠ s.respData) : ∃ w, x = .command w := by
  cases h with
  | illegal w | command w => exact ⟨w, rfl⟩
  | reset => exact absurd rfl hx
  | _ => simp at hne

end Writers

/-! ## The word of an instruction, issued -/

theorem encodeFields (i : Instr) : Laws.EncodeFields.Statement i := by
  cases i with
  | nop => exact Laws.EncodeFields.nop
  | chGet idx => exact Laws.EncodeFields.chGet idx
  | chSet idx arg => exact Laws.EncodeFields.chSet idx arg
  | armGet => exact Laws.EncodeFields.armGet
  | snapshot => exact Laws.EncodeFields.snapshot
  | snapGet idx => exact Laws.EncodeFields.snapGet idx
  | snapArmGet => exact Laws.EncodeFields.snapArmGet
  | encode => exact Laws.EncodeFields.encode
  | foutGet idx => exact Laws.EncodeFields.foutGet idx
  | dinClear => exact Laws.EncodeFields.dinClear
  | dinPush arg => exact Laws.EncodeFields.dinPush arg
  | decode => exact Laws.EncodeFields.decode
  | decGet idx => exact Laws.EncodeFields.decGet idx
  | decFlagsGet => exact Laws.EncodeFields.decFlagsGet
  | msgBegin => exact Laws.EncodeFields.msgBegin
  | msgField idx arg => exact Laws.EncodeFields.msgField idx arg
  | msgCommit => exact Laws.EncodeFields.msgCommit
  | msgAbort => exact Laws.EncodeFields.msgAbort
  | txEnable arg => exact Laws.EncodeFields.txEnable arg
  | txfGet idx => exact Laws.EncodeFields.txfGet idx
  | statusGet => exact Laws.EncodeFields.statusGet
  | faultGet => exact Laws.EncodeFields.faultGet

/-- The decoder reads back the word of a well-formed instruction (R74, R75, R77). -/
theorem decode_encode {i : Instr} (h : i.wellFormed = true) : decode (encode i) = some i := by
  obtain ⟨harg, hop, hidx, -, hsel⟩ := encodeFields i
  rw [decode_of_op hop, hsel, if_pos h, harg, hidx]
  cases i <;> rfl

theorem takeStep_issue {i : Instr} (h : i.wellFormed = true) (s : State) :
    takeStep (issue i) s = resultOf i (advancePc s) :=
  takeStep_of_some (decode_encode h) s

/-! ## Bytes pushed one after another (R122) -/

theorem byteArgOk_setWidth (b : Byte) : byteArgOk (b.setWidth 32) = true := by
  rw [byteArgOk, beq_iff_eq]
  refine BitVec.eq_of_getLsbD_eq fun k hk => ?_
  simp

theorem argByte_setWidth (b : Byte) : argByte (b.setWidth 32) = b := by
  refine BitVec.eq_of_getLsbD_eq fun k hk => ?_
  simp [argByte, hk, show k < 32 by omega]

theorem takeStep_pushByte (b : Byte) (s : State) :
    takeStep (issue (pushByte b)) s = respond okCode 0#32
      { advancePc s with din := pushedBytes b s.dinLen s.din, dinLen := pushedLen s.dinLen } := by
  have h : exec (pushByte b) (advancePc s) = complete 0#32
      { advancePc s with din := pushedBytes (argByte (b.setWidth 32)) s.dinLen s.din, dinLen := pushedLen s.dinLen } := rfl
  rw [takeStep_issue (i := pushByte b) (byteArgOk_setWidth b), resultOf_eq h, argByte_setWidth]

theorem dinLen_runOf_pushes (bytes : List Byte) (s : State) :
    (runOf ((bytes.map pushByte).map issue) s).dinLen.toNat = min (s.dinLen.toNat + bytes.length) 255 := by
  induction bytes generalizing s with
  | nil =>
    have := s.dinLen.isLt
    simp only [List.map_nil, runOf_nil, List.length_nil]
    omega
  | cons b rest ih =>
    rw [List.map_cons, List.map_cons, runOf_cons, takeStep_pushByte, ih, List.length_cons]
    show min ((pushedLen s.dinLen).toNat + _) 255 = _
    rw [pushedLen_toNat]
    omega

/-- The pushed bytes stand in order from the place `DIN_LEN` named; every other place of `DIN` keeps its byte. -/
theorem din_runOf_pushes (bytes : List Byte) (s : State) (j : Nat) (hj : j < 25) :
    (runOf ((bytes.map pushByte).map issue) s).din[j] =
      if j < s.dinLen.toNat then s.din[j] else bytes.getD (j - s.dinLen.toNat) s.din[j] := by
  induction bytes generalizing s with
  | nil => simp
  | cons b rest ih =>
    rw [List.map_cons, List.map_cons, runOf_cons, takeStep_pushByte, ih]
    show (if j < (pushedLen s.dinLen).toNat then (pushedBytes b s.dinLen s.din)[j]
      else rest.getD (j - (pushedLen s.dinLen).toNat) (pushedBytes b s.dinLen s.din)[j]) = _
    rw [pushedBytes_getElem b s.dinLen s.din j hj, pushedLen_toNat]
    rcases Nat.lt_trichotomy j s.dinLen.toNat with h | h | h
    · rw [if_pos (by omega), if_neg (by omega), if_pos h]
    · subst h
      rw [if_pos (by omega), if_pos rfl, if_neg (by omega), Nat.sub_self, List.getD_cons_zero]
    · rw [if_neg (by omega), if_neg (by omega), if_neg (by omega), Nat.min_eq_left (by omega),
        show j - s.dinLen.toNat = j - (s.dinLen.toNat + 1) + 1 by omega, List.getD_cons_succ]

end Sys2Proof.Machine

open Sys2Proof Sys2Proof.Machine

/-- Settles O44: each operation a step is built from keeps the invariant, and so does each case of `Took`. -/
theorem everyStepKeepsTheInvariant : Obligations.EveryStepKeepsTheInvariant := by
  intro s t h hstep
  cases hi : s.inputs with
  | nil => exact Host.Outcome.next.inj ((step_nil hi).symm.trans hstep) ▸ h
  | cons x xs =>
    have hx : MachineInv (takeStep x s) := machineInv_of_took h (takeStep_took x s)
    exact Host.Outcome.next.inj ((step_cons hi).symm.trans hstep) ▸ machineInv_withInputs hx xs

/-- Settles O45, field by field. -/
theorem resetMeetsTheInvariant : Obligations.ResetMeetsTheInvariant := machineInv_reset

/-- Settles O32: the reset state is written out value by value (R38). -/
theorem resetLeavesTheDocumentedValues : Obligations.ResetLeavesTheDocumentedValues :=
  ⟨rfl, rfl, rfl, rfl, rfl, rfl, rfl, rfl, rfl, rfl, rfl, rfl, rfl, rfl, rfl, rfl, rfl, rfl, rfl, rfl, rfl, rfl, rfl⟩

/-- Settles O10, by induction on the steps. -/
theorem positionCountsCommands : Obligations.PositionCountsCommands := by
  intro xs s
  induction xs generalizing s with
  | nil => rfl
  | cons x xs ih =>
    rw [runOf_cons, ih, List.countP_cons]
    cases x with
    | command w =>
      rw [(takeStep_took (.command w) s).pc_of_command]
      show _ = s.pc + (_ + 1)
      omega
    | tick | start | handoff | reset => exact congrArg (· + _) ((takeStep_took _ s).pc_of_no_command (by simp))

/-- Settles O39: the pushes start from the place 0, where `DIN_CLEAR` leaves `DIN_LEN`. -/
theorem pushedBytesAreKeptInOrder : Obligations.PushedBytesAreKeptInOrder := by
  intro s bytes
  have hrun : runOf (((Pseudo.loadFrame bytes).expand []).map issue) s =
      runOf ((bytes.map pushByte).map issue) (respond okCode 0#32 { advancePc s with dinLen := 0#8 }) :=
    congrArg (runOf ((bytes.map pushByte).map issue)) ((takeStep_issue (i := .dinClear) rfl s).trans (resultOf_eq rfl))
  refine ⟨_, hrun, ?_, fun j hj => ?_⟩
  · rw [dinLen_runOf_pushes]
    exact congrArg (min · 255) (Nat.zero_add _)
  · refine (din_runOf_pushes bytes _ j hj).trans ((if_neg (Nat.not_lt_zero j)).trans ?_)
    split
    · rename_i hb
      exact List.getD_eq_getElem _ _ hb
    · rename_i hb
      exact List.getD_eq_default _ _ (Nat.not_lt.mp hb)

/-- Settles O46, element by element. -/
theorem eachElementHasOnlyItsWriters : Obligations.EachElementHasOnlyItsWriters := by
  rintro x s _ rfl hx
  have ht := takeStep_took x s
  exact ⟨ht.writer_of_cur hx, ht.writer_of_arm hx, ht.writer_of_snapshot hx, ht.writer_of_msgOpen hx,
    ht.writer_of_stagedMask hx, ht.writer_of_stagedValue hx, ht.writer_of_fout hx, ht.writer_of_din hx,
    ht.writer_of_dinLen hx, ht.writer_of_decoded hx, ht.writer_of_txEn hx, ht.writer_of_txState hx,
    ht.writer_of_tickPending hx, ht.writer_of_txbuf hx, ht.writer_of_faultReg hx, ht.writer_of_response hx⟩

/-- Settles O47: a step reports at most one event, and FAULT takes its bit. -/
theorem faultBitsAreStickyAndReported : Obligations.FaultBitsAreStickyAndReported := by
  rintro x s _ rfl k hk
  by_cases hx : x = .reset
  · subst hx
    have hbit : ¬(takeStep .reset s).faultReg.getLsbD k = true := reset_faultBit k
    have hnone : (takeStep .reset s).events.drop s.events.length = [] := List.drop_length
    simp [hbit, hnone]
  · obtain ⟨o, hev, hf⟩ := (takeStep_took x s).reports hx
    rw [hev, List.drop_left, hf, faultAfter_getLsbD o hk]
    simp only [ne_eq, hx, not_false_eq_true, true_and]
    exact Iff.rfl

/-- Settles O49, from what a step reports and what it puts on the wire. -/
theorem outputsOnlyGrow : Obligations.OutputsOnlyGrow := by
  rintro x s _ rfl
  refine ⟨?_, (takeStep_took x s).wire_cases⟩
  by_cases hx : x = .reset
  · subst hx
    exact ⟨[], (List.append_nil _).symm, Nat.zero_le 1⟩
  · obtain ⟨o, hev, -⟩ := (takeStep_took x s).reports hx
    exact ⟨o.toList, hev, Option.length_toList_le⟩

end

section
/-!
Proofs of the statements about atomicity and visibility (20_memory.md): the order of a run, commands given twice, the staged values, and
what a snapshot or a start step sees of a message.
-/

namespace Sys2Proof.Machine

/-! ## The commands that branch: one equation per case -/

theorem exec_chSet_of_badIndex {k : Byte} (h : 16 ≤ k.toNat) (a : Arg) (s : State) :
    exec (.chSet k a) s = fail (.indexOutOfRange k) s := by
  rw [exec, execChSet, index?_of_ge h]

theorem exec_chSet_of_badValue {k : Byte} {a : Arg} (hk : k.toNat < 16) (h : outOfChannelRange (sval a) = true) (s : State) :
    exec (.chSet k a) s = fail (.invalidChannelValue (sval a)) s := by
  rw [exec, execChSet, index?_of_lt hk]
  exact if_pos h

theorem exec_chSet_of_legal {k : Byte} {a : Arg} (hk : k.toNat < 16) (h : ¬outOfChannelRange (sval a) = true) (s : State) :
    exec (.chSet k a) s = complete 0#32 { s with cur := s.cur.set k.toNat (lowChan (sval a)) } := by
  rw [exec, execChSet, index?_of_lt hk]
  exact if_neg h

theorem exec_msgBegin_of_open {s : State} (h : s.msgOpen = true) :
    exec .msgBegin s = fail (.sequenceError .msgBegin) s := if_pos h

theorem exec_msgBegin_of_closed {s : State} (h : ¬s.msgOpen = true) :
    exec .msgBegin s = complete 0#32 (clearStaging true s) := if_neg h

theorem exec_msgField_of_closed {s : State} (h : ¬s.msgOpen = true) (k : Byte) (a : Arg) :
    exec (.msgField k a) s = fail (.sequenceError .msgField) s := if_neg h

theorem exec_msgField_of_channel {s : State} (h : s.msgOpen = true) {k : Byte} (hk : k.toNat < 16) (a : Arg) :
    exec (.msgField k a) s = stageField k ⟨k.toNat, hk⟩ (sval a) s := by
  rw [exec, execMsgField, if_pos h, fieldTarget_of_channel hk]

theorem exec_msgField_of_armed {s : State} (h : s.msgOpen = true) (a : Arg) :
    exec (.msgField 0x10#8 a) s = complete 0#32 (stageArm (sval a != 0) s) := by
  rw [exec, execMsgField, if_pos h, fieldTarget_armed]

theorem exec_msgField_of_unknown {s : State} (h : s.msgOpen = true) {k : Byte} (hk : 0x11 ≤ k.toNat) (a : Arg) :
    exec (.msgField k a) s = complete 2#32 s := by
  rw [exec, execMsgField, if_pos h, fieldTarget_of_unknown hk]

theorem exec_msgCommit_of_open {s : State} (h : s.msgOpen = true) :
    exec .msgCommit s = complete 0#32 (clearStaging false (applyStaged s)) := if_pos h

/-- The violation that a failing `DECODE` reports (R126). -/
def decodeViolation (s : State) : DecodeError → Contract
  | .badLength => .badLength s.dinLen
  | .badHeader => .badHeader s.din[0]
  | .badFooter => .badFooter s.din[24]

theorem exec_decode_of_failed {s : State} {e : DecodeError}
    (h : decodeFrame Config.armFlagBit s.din s.dinLen = .failed e) : exec .decode s = fail (decodeViolation s e) s := by
  rw [exec, execDecode, h]
  cases e <;> rfl

theorem exec_decode_of_decoded {s : State} {c : ChannelState} {f : Byte}
    (h : decodeFrame Config.armFlagBit s.din s.dinLen = .decoded c f) :
    exec .decode s = complete 0#32 { s with dec := c.ch, decArm := c.arm, decFlags := f } := by
  rw [exec, execDecode, h]

/-! ## The other agents' steps: one equation per case -/

theorem tickStep_of_disabled {s : State} (h : ¬s.txEn = true) : tickStep s = s := if_neg h

theorem tickStep_of_pending {s : State} (h : s.txEn = true) (hp : s.tickPending = true) :
    tickStep s = emit .tickOverrun (recordFault overrunBit s) := by
  rw [tickStep, if_pos h, if_pos hp]

theorem tickStep_of_notPending {s : State} (h : s.txEn = true) (hp : ¬s.tickPending = true) :
    tickStep s = { s with tickPending := true } := by
  rw [tickStep, if_pos h, if_neg hp]

theorem startStep_of_disabled {s : State} (h : ¬startEnabled s = true) : startStep s = s := if_neg h

theorem startStep_of_enabled {s : State} (h : startEnabled s = true) :
    startStep s = { s with
      tickPending := false
      txbuf := encodeFrame Config.armFlagBit (published s)
      txState := .transmitting } := if_pos h

theorem handoffStep_of_disabled {s : State} {r : Answer} (h : ¬handoffEnabled s = true) : handoffStep r s = s := if_neg h

theorem handoffStep_of_enabled {s : State} {r : Answer} (h : handoffEnabled s = true) :
    handoffStep r s = { deliver r s with txState := .idle } := if_pos h

/-! ## Commands given twice (R59) -/

/-- Reporting a violation again changes nothing but the events: its FAULT bit is set already. -/
theorem raise_raise (e : Contract) (s : State) :
    raise e (raise e s) = { raise e s with events := (raise e (raise e s)).events } := by
  have hbit : setFaultBit (e.code.toNat - 1) (raise e s).faultReg = (raise e s).faultReg := by
    simp [setFaultBit, BitVec.or_assoc]
  exact congrArg (fun f => { emit (.contract e) (raise e s) with faultReg := f }) hbit

/-- `i`, given twice, writes nothing but the response unless it fails, and gives the same response again. -/
def AnswersAgain (i : Instr) (s : State) : Prop :=
  ∃ t u, exec i s = .next t ∧ exec i t = .next u ∧
    (t.respCode = 0x00#8 → t = { s with respCode := t.respCode, respData := t.respData }) ∧
    (t.respCode ≠ 0x00#8 →
      t = { s with respCode := t.respCode, respData := t.respData, faultReg := t.faultReg, events := t.events }) ∧
    u.respCode = t.respCode ∧ u.respData = t.respData

theorem answersAgain_of_complete {i : Instr} {d : BitVec 32} {s : State} (h : exec i s = complete d s)
    (hagain : exec i (respond okCode d s) = complete d (respond okCode d s)) : AnswersAgain i s :=
  ⟨_, _, h, hagain, fun _ => rfl, fun hne => absurd rfl hne, rfl, rfl⟩

theorem answersAgain_of_fail {i : Instr} {e : Contract} {s : State} (h : exec i s = fail e s)
    (hagain : exec i (raise e s) = fail e (raise e s)) : AnswersAgain i s :=
  ⟨_, _, h, hagain, fun hok => absurd hok (code_ne_ok e), fun _ => rfl, rfl, rfl⟩

/-- An indexed read answers again when neither a response nor the error path writes the elements it reads. -/
theorem answersAgain_of_readElement {width n : Nat} {i : Instr} {idx : Byte} {file : State → Vector (BitVec width) n}
    (hi : ∀ s, exec i s = readElement (file s) idx s) (s : State)
    (hrespond : ∀ code data, file (respond code data s) = file s) (hraise : ∀ e, file (raise e s) = file s) :
    AnswersAgain i s := by
  rcases index?_cases n idx with ⟨h, -⟩ | ⟨h, -⟩
  · refine answersAgain_of_complete ((hi s).trans (readElement_of_lt _ h s)) ?_
    rw [hi, hrespond, readElement_of_lt _ h, complete_eq]
  · refine answersAgain_of_fail (e := .indexOutOfRange idx) ((hi s).trans (readElement_of_ge _ h s)) ?_
    rw [hi, hraise, readElement_of_ge _ h]
    rfl

theorem answersAgain_of_readsOnly {i : Instr} (h : readsOnly i = true) (s : State) : AnswersAgain i s := by
  cases i with
  | chGet => exact answersAgain_of_readElement (file := State.cur) (fun _ => rfl) s (fun _ _ => rfl) fun _ => rfl
  | snapGet => exact answersAgain_of_readElement (file := State.snap) (fun _ => rfl) s (fun _ _ => rfl) fun _ => rfl
  | foutGet => exact answersAgain_of_readElement (file := State.fout) (fun _ => rfl) s (fun _ _ => rfl) fun _ => rfl
  | decGet => exact answersAgain_of_readElement (file := State.dec) (fun _ => rfl) s (fun _ _ => rfl) fun _ => rfl
  | txfGet => exact answersAgain_of_readElement (file := State.txbuf) (fun _ => rfl) s (fun _ _ => rfl) fun _ => rfl
  | armGet | snapArmGet | decFlagsGet | statusGet | faultGet => exact answersAgain_of_complete rfl rfl
  | _ => exact absurd h Bool.false_ne_true

/-- `i`, given twice, leaves the same state again, but for its event when it fails. -/
def RepeatsItsState (i : Instr) (s : State) : Prop :=
  ∃ t u, exec i s = .next t ∧ exec i t = .next u ∧ u = { t with events := u.events } ∧ (t.respCode = 0x00#8 → u = t)

theorem repeatsItsState_of_same {i : Instr} {s t : State} (h : exec i s = .next t) (hagain : exec i t = .next t) :
    RepeatsItsState i s := ⟨t, t, h, hagain, rfl, fun _ => rfl⟩

theorem repeatsItsState_decode (s : State) : RepeatsItsState .decode s := by
  cases h : decodeFrame Config.armFlagBit s.din s.dinLen with
  | failed e =>
    have hagain : exec .decode (raise (decodeViolation s e) s) = fail (decodeViolation s e) (raise (decodeViolation s e) s) :=
      exec_decode_of_failed (s := raise (decodeViolation s e) s) h
    exact ⟨_, _, exec_decode_of_failed h, hagain, raise_raise _ s, fun hok => absurd hok (code_ne_ok _)⟩
  | decoded c f => exact repeatsItsState_of_same (exec_decode_of_decoded h) (exec_decode_of_decoded (c := c) (f := f) h)

theorem repeatsItsState_txEnable (a : Arg) (s : State) : RepeatsItsState (.txEnable a) s := by
  refine repeatsItsState_of_same (t := respond okCode 0#32
    { s with txEn := argFlag a, tickPending := argFlag a && s.tickPending }) rfl ?_
  have hpending : (argFlag a && (argFlag a && s.tickPending)) = (argFlag a && s.tickPending) := Bool.and_self_left ..
  exact congrArg (fun b => Host.Outcome.next (respond okCode 0#32 { s with txEn := argFlag a, tickPending := b })) hpending

theorem repeatsItsState_of_repeatable {i : Instr} (h : repeatable i = true) (s : State) : RepeatsItsState i s := by
  cases i with
  | snapshot | encode | dinClear => exact repeatsItsState_of_same rfl rfl
  | decode => exact repeatsItsState_decode s
  | txEnable a => exact repeatsItsState_txEnable a s
  | _ => exact absurd h Bool.false_ne_true

/-- `MSG_BEGIN` leaves a message open, whether it opened it or failed (R168). -/
theorem msgOpen_of_msgBegin (s : State) : (resultOf .msgBegin s).msgOpen = true := by
  by_cases h : s.msgOpen = true
  · rw [resultOf_eq (exec_msgBegin_of_open h)]
    exact h
  · rw [resultOf_eq (exec_msgBegin_of_closed h)]
    rfl

/-! ## The staged values (R62) -/

/-- The state with other contents of `PVAL` and `PARM` (R26). -/
def withStagedValues (p : Channels) (a : Bool) (s : State) : State := { s with pval := p, parm := a }

/-- From `s` and from `s` with `p` and `a` staged, `i` leaves states that differ in `PVAL` and `PARM` at most. -/
def IgnoresStagedValues (i : Instr) (s : State) (p : Channels) (a : Bool) : Prop :=
  ∃ t p' a', exec i s = .next t ∧ exec i (withStagedValues p a s) = .next (withStagedValues p' a' t)

section IgnoresStagedValues

variable (s : State) (p : Channels) (a : Bool)

theorem ignoresStagedValues_of_readElement {width n : Nat} {i : Instr} {idx : Byte} {file : State → Vector (BitVec width) n}
    (hi : ∀ s, exec i s = readElement (file s) idx s) (hfile : file (withStagedValues p a s) = file s) :
    IgnoresStagedValues i s p a := by
  rcases index?_cases n idx with ⟨h, -⟩ | ⟨h, -⟩
  · refine ⟨_, p, a, (hi s).trans (readElement_of_lt _ h s), ?_⟩
    rw [hi, hfile, readElement_of_lt _ h]
    rfl
  · refine ⟨_, p, a, (hi s).trans (readElement_of_ge _ h s), ?_⟩
    rw [hi, readElement_of_ge _ h]
    rfl

theorem ignoresStagedValues_chSet (k : Byte) (v : Arg) : IgnoresStagedValues (.chSet k v) s p a := by
  rcases Nat.lt_or_ge k.toNat 16 with hk | hk
  · by_cases hv : outOfChannelRange (sval v) = true
    · exact ⟨_, p, a, exec_chSet_of_badValue hk hv _, exec_chSet_of_badValue hk hv _⟩
    · exact ⟨_, p, a, exec_chSet_of_legal hk hv _, exec_chSet_of_legal hk hv _⟩
  · exact ⟨_, p, a, exec_chSet_of_badIndex hk v _, exec_chSet_of_badIndex hk v _⟩

theorem ignoresStagedValues_decode : IgnoresStagedValues .decode s p a := by
  cases h : decodeFrame Config.armFlagBit s.din s.dinLen with
  | failed e => exact ⟨_, p, a, exec_decode_of_failed h, exec_decode_of_failed (s := withStagedValues p a s) h⟩
  | decoded c f => exact ⟨_, p, a, exec_decode_of_decoded h, exec_decode_of_decoded (s := withStagedValues p a s) h⟩

theorem ignoresStagedValues_msgBegin : IgnoresStagedValues .msgBegin s p a := by
  by_cases h : s.msgOpen = true
  · exact ⟨_, p, a, exec_msgBegin_of_open h, exec_msgBegin_of_open (s := withStagedValues p a s) h⟩
  · exact ⟨_, p, a, exec_msgBegin_of_closed h, exec_msgBegin_of_closed (s := withStagedValues p a s) h⟩

/-- A field overwrites what was staged for its target and keeps the rest, whatever that is (R169). -/
theorem ignoresStagedValues_msgField (k : Byte) (v : Arg) : IgnoresStagedValues (.msgField k v) s p a := by
  by_cases h : s.msgOpen = true
  · have hstaged : (withStagedValues p a s).msgOpen = true := h
    rcases fieldTarget_cases k with ⟨hk, -⟩ | ⟨rfl, -⟩ | ⟨hk, -⟩
    · rw [IgnoresStagedValues, exec_msgField_of_channel h hk, exec_msgField_of_channel hstaged hk]
      by_cases hc : clamp (sval v) ≠ sval v
      · exact ⟨_, p.set k.toNat (lowChan (clamp (sval v))), a, if_pos hc, if_pos hc⟩
      · exact ⟨_, p.set k.toNat (lowChan (clamp (sval v))), a, if_neg hc, if_neg hc⟩
    · exact ⟨_, p, sval v != 0, exec_msgField_of_armed h v, exec_msgField_of_armed hstaged v⟩
    · exact ⟨_, p, a, exec_msgField_of_unknown h hk v, exec_msgField_of_unknown hstaged hk v⟩
  · exact ⟨_, p, a, exec_msgField_of_closed h k v, exec_msgField_of_closed (s := withStagedValues p a s) h k v⟩

theorem ignoresStagedValues_of_ne_msgCommit {i : Instr} (h : i ≠ .msgCommit) : IgnoresStagedValues i s p a := by
  cases i with
  | chGet => exact ignoresStagedValues_of_readElement s p a (file := State.cur) (fun _ => rfl) rfl
  | snapGet => exact ignoresStagedValues_of_readElement s p a (file := State.snap) (fun _ => rfl) rfl
  | foutGet => exact ignoresStagedValues_of_readElement s p a (file := State.fout) (fun _ => rfl) rfl
  | decGet => exact ignoresStagedValues_of_readElement s p a (file := State.dec) (fun _ => rfl) rfl
  | txfGet => exact ignoresStagedValues_of_readElement s p a (file := State.txbuf) (fun _ => rfl) rfl
  | chSet k v => exact ignoresStagedValues_chSet s p a k v
  | decode => exact ignoresStagedValues_decode s p a
  | msgBegin => exact ignoresStagedValues_msgBegin s p a
  | msgField k v => exact ignoresStagedValues_msgField s p a k v
  | msgCommit => exact absurd rfl h
  | nop | armGet | snapshot | snapArmGet | encode | dinClear | dinPush | decFlagsGet | msgAbort | txEnable | statusGet
  | faultGet => exact ⟨_, p, a, rfl, rfl⟩

theorem tickStep_withStagedValues : tickStep (withStagedValues p a s) = withStagedValues p a (tickStep s) := by
  by_cases he : s.txEn = true
  · by_cases hp : s.tickPending = true
    · rw [tickStep_of_pending he hp, tickStep_of_pending (s := withStagedValues p a s) he hp]
      rfl
    · rw [tickStep_of_notPending he hp, tickStep_of_notPending (s := withStagedValues p a s) he hp]
      rfl
  · rw [tickStep_of_disabled he, tickStep_of_disabled (s := withStagedValues p a s) he]

theorem startStep_withStagedValues : startStep (withStagedValues p a s) = withStagedValues p a (startStep s) := by
  by_cases h : startEnabled s = true
  · rw [startStep_of_enabled h, startStep_of_enabled (s := withStagedValues p a s) h]
    rfl
  · rw [startStep_of_disabled h, startStep_of_disabled (s := withStagedValues p a s) h]

theorem handoffStep_withStagedValues (r : Answer) :
    handoffStep r (withStagedValues p a s) = withStagedValues p a (handoffStep r s) := by
  by_cases h : handoffEnabled s = true
  · rw [handoffStep_of_enabled h, handoffStep_of_enabled (s := withStagedValues p a s) h]
    cases r <;> rfl
  · rw [handoffStep_of_disabled h, handoffStep_of_disabled (s := withStagedValues p a s) h]

/-- No step but a commit reads `PVAL` or `PARM`. -/
theorem takeStep_withStagedValues {x : Input} (h : ¬issues x .msgCommit) :
    ∃ p' a', takeStep x (withStagedValues p a s) = withStagedValues p' a' (takeStep x s) := by
  cases x with
  | command w =>
    cases hd : decode w with
    | none => exact ⟨p, a, by rw [takeStep_of_illegal hd, takeStep_of_illegal hd]; rfl⟩
    | some i =>
      have hi : i ≠ .msgCommit := fun he => h ⟨w, rfl, he ▸ hd⟩
      obtain ⟨t, p', a', ht, hstaged⟩ := ignoresStagedValues_of_ne_msgCommit (advancePc s) p a hi
      refine ⟨p', a', ?_⟩
      rw [takeStep_of_some hd, takeStep_of_some hd, resultOf_eq ht]
      exact resultOf_eq hstaged
  | tick => exact ⟨p, a, tickStep_withStagedValues s p a⟩
  | start => exact ⟨p, a, startStep_withStagedValues s p a⟩
  | handoff r => exact ⟨p, a, handoffStep_withStagedValues s p a r⟩
  | reset => exact ⟨_, _, rfl⟩

end IgnoresStagedValues

/-! ## What publishes, and what sees it (R58, R61) -/

theorem takeStep_chSet {k : Byte} {v : Arg} (hk : k.toNat < 16) (h0 : 0 ≤ v.toInt) (h1 : v.toInt ≤ 2047) (s : State) :
    takeStep (issue (.chSet k v)) s =
      respond okCode 0#32 { advancePc s with cur := s.cur.set k.toNat (lowChan v.toInt) } := by
  have hv : ¬outOfChannelRange (sval v) = true := by
    rw [outOfChannelRange_iff, sval_eq_toInt]
    omega
  rw [takeStep_issue (i := .chSet k v) rfl, resultOf_eq (exec_chSet_of_legal hk hv _), sval_eq_toInt]
  rfl

theorem takeStep_msgCommit {s : State} (h : s.msgOpen = true) :
    takeStep (issue .msgCommit) s = respond okCode 0#32 (clearStaging false (applyStaged (advancePc s))) :=
  (takeStep_issue (i := .msgCommit) rfl s).trans (resultOf_eq (exec_msgCommit_of_open (s := advancePc s) h))

/-- A commit publishes the ChannelState with every staged update applied (R170). -/
theorem published_msgCommit {s : State} (h : s.msgOpen = true) :
    published (takeStep (issue .msgCommit) s) = published (applyStaged s) := by
  rw [takeStep_msgCommit h]
  rfl

/-- A snapshot takes what is published (R147). -/
theorem hostSnapshot_snapshot (s : State) : hostSnapshot (takeStep (issue .snapshot) s) = published s := by
  rw [takeStep_issue (i := .snapshot) rfl, resultOf_eq (t := respond okCode 0#32 _) rfl]
  rfl

/-- An enabled start encodes what is published (R194). -/
theorem txbuf_start {s : State} (h : startEnabled s = true) :
    (takeStep .start s).txbuf = encodeFrame Config.armFlagBit (published s) :=
  congrArg State.txbuf (startStep_of_enabled h)

theorem takeStep_published {x : Input} (h : ¬writesChannelState x) (s : State) :
    published (takeStep x s) = published s := by
  have ht := takeStep_took x s
  have hx : x ≠ .reset := fun he => h (.inl he)
  have hcur : (takeStep x s).cur = s.cur := of_not_not fun hne => h (.inr (ht.writer_of_cur hx hne))
  have harm : (takeStep x s).arm = s.arm := of_not_not fun hne => h (.inr (.inl (ht.writer_of_arm hx hne).1))
  rw [published, hcur, harm]
  rfl

theorem runOf_published {xs : List Input} (h : ∀ x ∈ xs, ¬writesChannelState x) (s : State) :
    published (runOf xs s) = published s :=
  runOf_keeps (P := fun t => published t = published s) (fun x hx t ht => (takeStep_published (h x hx) t).trans ht) rfl

theorem hostSnapshot_runOf_snapshot (xs : List Input) (s : State) :
    hostSnapshot (runOf (xs ++ [issue .snapshot]) s) = published (runOf xs s) := by
  rw [runOf_append]
  exact hostSnapshot_snapshot _

theorem txbuf_runOf_start {xs : List Input} {s : State} (h : startEnabled (runOf xs s) = true) :
    (runOf (xs ++ [.start]) s).txbuf = encodeFrame Config.armFlagBit (published (runOf xs s)) := by
  rw [runOf_append]
  exact txbuf_start h

/-- Every step keeps the snapshot, or clears it, or copies what is published. -/
theorem Took.hostSnapshot_cases {s t : State} {x : Input} (h : Took s x t) :
    hostSnapshot t = hostSnapshot s ∨ (x = .reset ∧ hostSnapshot t = ⟨Vector.replicate 16 0#11, false⟩) ∨
      hostSnapshot t = published s := by
  cases h with
  | command w i hd t he =>
    cases he with
    | snapshot => exact .inr (.inr rfl)
    | _ => exact .inl (by simp [hostSnapshot])
  | reset => exact .inr (.inl ⟨rfl, rfl⟩)
  | _ => exact .inl (by simp [hostSnapshot])

end Sys2Proof.Machine

open Sys2Proof Sys2Proof.Machine

/-- Settles O9, by induction on the steps to come: each step is the next input's, and the inputs left play no part in it. -/
theorem machineRunsItsInputsInOrder : Obligations.MachineRunsItsInputsInOrder := by
  refine ⟨fun s => ?_, fun s h => step_nil h⟩
  generalize hi : s.inputs = xs
  induction xs generalizing s with
  | nil => exact congrArg (fun ys => Host.Outcome.next (withInputs ys s)) hi
  | cons x xs ih =>
    have hstep : Sys2Proof.core.step s = .next (withInputs xs (takeStep x s)) := step_cons hi
    have hrest := ih (withInputs xs (takeStep x s)) rfl
    refine (run_succ Sys2Proof.core xs.length s _ hstep).trans (hrest.trans ?_)
    exact congrArg (fun t => Host.Outcome.next (runOf xs t)) (takeStep_withInputs x s []).symm

/-- Settles O42, from the state each of the two commands leaves. -/
theorem lastWriterOfAChannelWins : Obligations.LastWriterOfAChannelWins := by
  intro s k v hk hopen hmask h0 h1
  constructor
  · have hset := takeStep_chSet hk h0 h1 s
    rw [runOf_cons, runOf_cons, runOf_nil, takeStep_msgCommit (by rw [hset]; exact hopen), hset]
    exact (mergeStaged_getElem _ _ _ _ hk).trans (if_pos hmask)
  · rw [runOf_cons, runOf_cons, runOf_nil, takeStep_chSet hk h0 h1, respond_cur, Vector.getElem_set_self]
    exact lowChan_toNat h0 h1

/-- Settles O50, clause by clause. -/
theorem repeatedCommandsBehaveAsStated : Obligations.RepeatedCommandsBehaveAsStated := by
  refine ⟨fun i s h => answersAgain_of_readsOnly h s, fun i s h => repeatsItsState_of_repeatable h s, fun v s h => ?_,
    fun s => ?_⟩
  · refine ⟨_, rfl, (pushedLen_toNat s.dinLen).trans ?_⟩
    omega
  · exact ⟨_, _, exec_eq_resultOf .msgBegin s, exec_msgBegin_of_open (msgOpen_of_msgBegin s), rfl⟩

/-- Settles O51: every command but `MSG_COMMIT`, and every other agent's step, ignores the staged values. -/
theorem onlyCommitReadsTheStagedValues : Obligations.OnlyCommitReadsTheStagedValues :=
  fun _ s p a h => takeStep_withStagedValues s p a h

/-- Settles O53: steps that write no ChannelState keep what is published, and the commit publishes the whole message in one step. -/
theorem messageIsSeenWholeOrNotAtAll : Obligations.MessageIsSeenWholeOrNotAtAll := by
  intro s xs hopen hxs
  have hbefore : published (runOf xs s) = published s := runOf_published hxs s
  have hafter : published (runOf (issue .msgCommit :: xs) s) = published (applyStaged s) :=
    (runOf_published hxs _).trans (published_msgCommit hopen)
  refine ⟨⟨hbefore, ?_, fun hs => ?_⟩, published (applyStaged s), fun i hi => mergeStaged_getElem _ _ _ i hi, rfl, hafter,
    ?_, fun hs => ?_⟩
  · rw [hostSnapshot_runOf_snapshot, hbefore]
  · rw [txbuf_runOf_start hs, hbefore]
  · rw [hostSnapshot_runOf_snapshot, hafter]
  · rw [txbuf_runOf_start hs, hafter]

/-- Settles O54, by induction on the steps: the first step keeps the snapshot, clears it, or copies what the first state published. -/
theorem snapshotIsOneWholeChannelState : Obligations.SnapshotIsOneWholeChannelState := by
  intro s xs
  induction xs generalizing s with
  | nil => exact .inl rfl
  | cons x xs ih =>
    rw [runOf_cons]
    rcases ih (takeStep x s) with hkept | ⟨hmem, hzero⟩ | ⟨t, hmem, hpub⟩
    · rw [hkept]
      rcases (takeStep_took x s).hostSnapshot_cases with h | ⟨rfl, h⟩ | h
      · exact .inl h
      · exact .inr (.inl ⟨List.mem_cons_self, h⟩)
      · exact .inr (.inr ⟨s, List.mem_cons_self, h⟩)
    · exact .inr (.inl ⟨List.mem_cons_of_mem _ hmem, hzero⟩)
    · exact .inr (.inr ⟨t, List.mem_cons_of_mem _ hmem, hpub⟩)

end

section
/-!
Proofs of the statements about the encoding (30_encoding.md): decoder and encoder, and which words are legal.
-/

namespace Sys2Proof

/-! ## The operand fields a form admits (R72, R74) -/

/-- The operand fields that meet the fixed-zero bits of a form, told by value (R72, R74). -/
def Form.Admits (arg : Arg) (idx : Byte) : Form → Prop
  | .N => arg = 0#32 ∧ idx = 0#8
  | .I => arg = 0#32
  | .IA => True
  | .AB => arg.toNat < 256 ∧ idx = 0#8
  | .AF => arg.toNat < 2 ∧ idx = 0#8

theorem and_fixedArg_iff {f : Form} (hf : argField f.mask = BitVec.allOnes 32) (arg : Arg) :
    arg &&& argField f.mask = 0#32 ↔ arg = 0#32 := by
  rw [hf, BitVec.and_allOnes]

theorem and_fixedIdx_iff {f : Form} (hf : idxField f.mask = BitVec.allOnes 8) (idx : Byte) :
    idx &&& idxField f.mask = 0#8 ↔ idx = 0#8 := by
  rw [hf, BitVec.and_allOnes]

theorem byteArgOk_iff_lt (arg : Arg) : byteArgOk arg = true ↔ arg.toNat < 256 := by
  have := arg.isLt
  rw [byteArgOk, beq_iff_eq, BitVec.toNat_eq, BitVec.extractLsb'_toNat, Nat.shiftRight_eq_div_pow, BitVec.toNat_ofNat]
  omega

theorem flagArgOk_iff_lt (arg : Arg) : flagArgOk arg = true ↔ arg.toNat < 2 := by
  have := arg.isLt
  rw [flagArgOk, beq_iff_eq, BitVec.toNat_eq, BitVec.extractLsb'_toNat, Nat.shiftRight_eq_div_pow, BitVec.toNat_ofNat]
  omega

theorem admits_iff (f : Form) (arg : Arg) (idx : Byte) :
    f.Admits arg idx ↔ arg &&& argField f.mask = 0#32 ∧ idx &&& idxField f.mask = 0#8 := by
  cases f with
  | N => rw [and_fixedArg_iff (by decide), and_fixedIdx_iff (by decide), Form.Admits]
  | I =>
    rw [and_fixedArg_iff (by decide), Form.Admits]
    exact (and_iff_left (Laws.EncodeFields.idx_free idx)).symm
  | IA => exact iff_of_true trivial ⟨Laws.EncodeFields.arg_free arg, Laws.EncodeFields.idx_free_IA idx⟩
  | AB => rw [← byteArgOk_iff, byteArgOk_iff_lt, and_fixedIdx_iff (by decide), Form.Admits]
  | AF => rw [← flagArgOk_iff, flagArgOk_iff_lt, and_fixedIdx_iff (by decide), Form.Admits]

theorem selects_iff_admits (r : OpcodeRow) (w : CmdWord) :
    r.selects w = true ↔ opField w = r.op ∧ rsvField w = 0#16 ∧ r.form.Admits (argField w) (idxField w) := by
  rw [selects_iff, admits_iff]
  tauto

/-! ## The instruction of a row and its fields (R75, R77) -/

theorem mnemonic_command (m : Mnemonic) (idx : Byte) (arg : Arg) : (m.command idx arg).mnemonic = m := by
  cases m <;> rfl

/-- The fields a row's form admits are those of its instruction's word: what the form drops is 0. -/
theorem fields_command {m : Mnemonic} {idx : Byte} {arg : Arg} (h : m.row.form.Admits arg idx) :
    (m.command idx arg).arg = arg ∧ (m.command idx arg).idx = idx := by
  cases m with
  | nop | armGet | snapshot | snapArmGet | encode | dinClear | decode | decFlagsGet | msgBegin | msgCommit | msgAbort | statusGet
  | faultGet => exact ⟨h.1.symm, h.2.symm⟩
  | chGet | snapGet | foutGet | decGet | txfGet => exact ⟨h.symm, rfl⟩
  | chSet | msgField => exact ⟨rfl, rfl⟩
  | dinPush | txEnable => exact ⟨rfl, h.2.symm⟩

theorem encode_command {w : CmdWord} {m : Mnemonic} (h : m.row.selects w = true) :
    encode (m.command (idxField w) (argField w)) = w := by
  obtain ⟨hop, hrsv, hadmits⟩ := (selects_iff_admits _ _).1 h
  obtain ⟨harg, hidx⟩ := fields_command hadmits
  rw [encode, mnemonic_command, harg, hidx, ← hop, ← hrsv, wordOf_fields]

/-- A word a row selects decodes to that row's command. -/
theorem decode_of_selects {w : CmdWord} {m : Mnemonic} (h : m.row.selects w = true) :
    decode w = some (m.command (idxField w) (argField w)) := by
  rw [decode_of_op ((selects_iff_admits _ _).1 h).1, if_pos h]

/-- No two mnemonics share an `OP` (R75). -/
theorem row_eq_of_op {m n : Mnemonic} (h : m.row.op = n.row.op) : m.row = n.row :=
  Option.some.inj ((find_row m).symm.trans (h ▸ find_row n))

end Sys2Proof

namespace Sys2Proof.Machine

/-! ## The legal words (R72 to R76) -/

/-- The opcode numbers of the rows of a form, in the order of the map. -/
def opcodesOf (f : Form) : List Nat := (opcodeTable.filter (·.form = f)).map (·.op.toNat)

theorem row_mem (m : Mnemonic) : m.row ∈ opcodeTable := List.mem_of_find?_eq_some (find_row m)

theorem mem_opcodesOf {f : Form} {n : Nat} : n ∈ opcodesOf f ↔ ∃ row ∈ opcodeTable, row.form = f ∧ row.op.toNat = n := by
  simp only [opcodesOf, List.mem_map, List.mem_filter, decide_eq_true_eq, and_assoc]

theorem argField_toNat (w : CmdWord) : (argField w).toNat = (w >>> 32).toNat := by
  have := w.isLt
  rw [argField, BitVec.extractLsb'_toNat, BitVec.toNat_ushiftRight, Nat.shiftRight_eq_div_pow]
  omega

theorem opField_toNat (w : CmdWord) : (opField w).toNat = (w >>> 24).toNat % 256 := by
  rw [opField, BitVec.extractLsb'_toNat, BitVec.toNat_ushiftRight]

theorem idxField_toNat (w : CmdWord) : (idxField w).toNat = (w >>> 16).toNat % 256 := by
  rw [idxField, BitVec.extractLsb'_toNat, BitVec.toNat_ushiftRight]

theorem rsvField_toNat (w : CmdWord) : (rsvField w).toNat = w.toNat % 65536 := by
  rw [rsvField, BitVec.extractLsb'_toNat, Nat.shiftRight_zero]

/-- A word is legal when `RSV` is 0 and its `OP` is one of a form that admits its operand fields. -/
theorem legalWord_iff (w : CmdWord) :
    legalWord w = true ↔ rsvField w = 0#16 ∧
      ∃ f : Form, (opField w).toNat ∈ opcodesOf f ∧ f.Admits (argField w) (idxField w) := by
  have hN : opcodesOf .N = [0x00, 0x03, 0x04, 0x06, 0x08, 0x0A, 0x0C, 0x0E, 0x10, 0x12, 0x13, 0x1E, 0x1F] := by decide
  have hI : opcodesOf .I = [0x01, 0x05, 0x09, 0x0D, 0x19] := by decide
  have hIA : opcodesOf .IA = [0x02, 0x11] := by decide
  have hAB : opcodesOf .AB = [0x0B] := by decide
  have hAF : opcodesOf .AF = [0x18] := by decide
  simp only [legalWord, ← argField_toNat, ← opField_toNat, ← idxField_toNat, ← rsvField_toNat, ← hN, ← hI, ← hIA,
    Bool.and_eq_true, Bool.or_eq_true, List.contains_iff_mem, beq_iff_eq, decide_eq_true_eq]
  constructor
  · rintro ⟨hrsv, hform⟩
    refine ⟨BitVec.eq_of_toNat_eq hrsv, ?_⟩
    rcases hform with (((⟨⟨hop, hidx⟩, harg⟩ | ⟨hop, harg⟩) | hop) | ⟨⟨hop, hidx⟩, harg⟩) | ⟨⟨hop, hidx⟩, harg⟩
    · exact ⟨.N, hop, BitVec.eq_of_toNat_eq harg, BitVec.eq_of_toNat_eq hidx⟩
    · exact ⟨.I, hop, BitVec.eq_of_toNat_eq harg⟩
    · exact ⟨.IA, hop, trivial⟩
    · exact ⟨.AB, hAB ▸ List.mem_singleton.2 hop, harg, BitVec.eq_of_toNat_eq hidx⟩
    · exact ⟨.AF, hAF ▸ List.mem_singleton.2 hop, harg, BitVec.eq_of_toNat_eq hidx⟩
  · rintro ⟨hrsv, f, hop, hadmits⟩
    refine ⟨congrArg BitVec.toNat hrsv, ?_⟩
    cases f with
    | N => exact .inl (.inl (.inl (.inl ⟨⟨hop, congrArg BitVec.toNat hadmits.2⟩, congrArg BitVec.toNat hadmits.1⟩)))
    | I => exact .inl (.inl (.inl (.inr ⟨hop, congrArg BitVec.toNat hadmits⟩)))
    | IA => exact .inl (.inl (.inr hop))
    | AB => exact .inl (.inr ⟨⟨List.mem_singleton.1 (hAB ▸ hop), congrArg BitVec.toNat hadmits.2⟩, hadmits.1⟩)
    | AF => exact .inr ⟨⟨List.mem_singleton.1 (hAF ▸ hop), congrArg BitVec.toNat hadmits.2⟩, hadmits.1⟩

theorem decode_isSome_iff (w : CmdWord) : (decode w).isSome = true ↔ ∃ m : Mnemonic, m.row.selects w = true := by
  constructor
  · intro h
    obtain ⟨i, hi⟩ := Option.isSome_iff_exists.1 h
    obtain ⟨m, -, hm, -⟩ := decode_some hi
    exact ⟨m, hm⟩
  · rintro ⟨m, hm⟩
    rw [decode_of_selects hm]
    rfl

theorem decode_isSome (w : CmdWord) : (decode w).isSome = legalWord w := by
  rw [Bool.eq_iff_iff, decode_isSome_iff, legalWord_iff]
  constructor
  · rintro ⟨m, hm⟩
    obtain ⟨hop, hrsv, hadmits⟩ := (selects_iff_admits _ _).1 hm
    exact ⟨hrsv, m.row.form, mem_opcodesOf.2 ⟨m.row, row_mem m, rfl, congrArg BitVec.toNat hop.symm⟩, hadmits⟩
  · rintro ⟨hrsv, f, hop, hadmits⟩
    obtain ⟨row, hrow, rfl, hrowop⟩ := mem_opcodesOf.1 hop
    refine ⟨row.mnemonic, ?_⟩
    rw [← row_of_mem hrow]
    exact (selects_iff_admits _ _).2 ⟨BitVec.eq_of_toNat_eq hrowop.symm, hrsv, hadmits⟩

theorem decode_eq_none {w : CmdWord} (h : legalWord w = false) : decode w = none := by
  rwa [← decode_isSome, Option.isSome_eq_false_iff, Option.isNone_iff_eq_none] at h

end Sys2Proof.Machine

open Sys2Proof Sys2Proof.Machine

/-- Settles O1: the row of an instruction's mnemonic selects its word, whose fields are its operands. -/
theorem decodeOfEncodeIsTheInstruction : Obligations.DecodeOfEncodeIsTheInstruction :=
  fun _ h => decode_encode h

/-- Settles O2: the row that selected the word gives back its four fields, and selects the instruction's word only when the instruction
is well-formed. -/
theorem encodeOfDecodeIsTheWord : Obligations.EncodeOfDecodeIsTheWord := by
  intro w i h
  obtain ⟨m, -, hsel, rfl⟩ := decode_some h
  have hw := encode_command hsel
  obtain ⟨-, -, -, -, hwf⟩ := encodeFields (m.command (idxField w) (argField w))
  rw [hw, mnemonic_command, hsel] at hwf
  exact ⟨hw, hwf.symm⟩

/-- Settles O3: two rows that match a word have its `OP`, so they are one row. -/
theorem decoderSelectsTheMatchingRow : Obligations.DecoderSelectsTheMatchingRow := by
  intro w row hrow hmatch
  have hsel : row.mnemonic.row.selects w = true := row_of_mem hrow ▸ beq_iff_eq.2 hmatch
  refine ⟨decode_of_selects hsel, fun other hother hmatch' => ?_⟩
  have hsel' : other.mnemonic.row.selects w = true := row_of_mem hother ▸ beq_iff_eq.2 hmatch'
  have hop := ((selects_iff_admits _ _).1 hsel).1
  have hop' := ((selects_iff_admits _ _).1 hsel').1
  rw [row_of_mem hrow, row_of_mem hother]
  exact row_eq_of_op (hop'.symm.trans hop)

/-- Settles O4: a word some row selects is a word whose form admits its operand fields. -/
theorem decoderAcceptsExactlyTheLegalWords : Obligations.DecoderAcceptsExactlyTheLegalWords := decode_isSome

/-- Settles O5: HOST's step on a word the decoder rejects is `raise`. -/
theorem illegalWordTakesTheErrorPath : Obligations.IllegalWordTakesTheErrorPath := by
  refine ⟨fun s w rest hinputs hw => ?_, decode_encode (i := .nop) rfl⟩
  rw [step_cons hinputs, takeStep_of_illegal (decode_eq_none hw)]
  rfl

/-- Settles O6: each word is the word of its command. -/
theorem writtenWordsDecode : Obligations.WrittenWordsDecode :=
  ⟨decode_encode (i := .nop) rfl, decode_encode (i := .chGet 16#8) rfl, decode_encode (i := .chSet 3#8 0xFFFFFFFF#32) rfl,
    decode_encode (i := .snapshot) rfl, decode_encode (i := .dinPush 0xFF#32) rfl, decode_encode (i := .msgField 0#8 5000#32) rfl,
    decode_encode (i := .txEnable 1#32) rfl, decode_encode (i := .statusGet) rfl⟩

end

section
/-!
Proofs of the statements about the pseudo-instructions of 30_encoding.md R80, run as HOST's command words: `LOAD_FRAME` and `DECODE`, the
message of `APPLY`, and the loop of `STOP`.
-/

namespace Sys2Proof.Machine

/-! ## A loaded frame (R122, R126, R128) -/

/-- `n` commands took `s` to `t` and wrote nothing but the decode buffer and the response. -/
def OnlyPushes (n : Nat) (s t : State) : Prop :=
  t = { s with din := t.din, dinLen := t.dinLen, respCode := t.respCode, respData := t.respData, pc := s.pc + n }

theorem OnlyPushes.trans {m n : Nat} {s u t : State} (h : OnlyPushes m s u) (h' : OnlyPushes n u t) :
    OnlyPushes (m + n) s t := by
  refine Eq.trans h' (Eq.trans (congrArg (fun v : State => { v with
    din := t.din, dinLen := t.dinLen, respCode := t.respCode, respData := t.respData, pc := v.pc + n }) h) ?_)
  exact congrArg (fun p => { s with
    din := t.din, dinLen := t.dinLen, respCode := t.respCode, respData := t.respData, pc := p }) (Nat.add_assoc _ _ _)

theorem onlyPushes_pushByte (b : Byte) (s : State) : OnlyPushes 1 s (takeStep (issue (pushByte b)) s) := by
  rw [takeStep_pushByte]
  rfl

theorem onlyPushes_runOf_pushes (bytes : List Byte) (s : State) :
    OnlyPushes bytes.length s (runOf ((bytes.map pushByte).map issue) s) := by
  induction bytes generalizing s with
  | nil => rfl
  | cons b rest ih =>
    rw [List.length_cons, Nat.add_comm]
    exact (onlyPushes_pushByte b s).trans (ih _)

/-- A whole frame pushed from the place 0 on is what `DIN` holds (R122). -/
theorem runOf_pushes_frame (f : Frame) {s : State} (h : s.dinLen = 0#8) :
    ∃ code data, runOf ((f.toList.map pushByte).map issue) s =
      { s with din := f, dinLen := 25#8, respCode := code, respData := data, pc := s.pc + 25 } := by
  have hlen : f.toList.length = 25 := Vector.length_toList
  have hzero : s.dinLen.toNat = 0 := congrArg BitVec.toNat h
  have hdin : (runOf ((f.toList.map pushByte).map issue) s).din = f := by
    refine Vector.ext fun j hj => ?_
    rw [din_runOf_pushes, hzero, if_neg (Nat.not_lt_zero j), Nat.sub_zero, List.getD_eq_getElem _ _ (by omega),
      Vector.getElem_toList]
  have hdinLen : (runOf ((f.toList.map pushByte).map issue) s).dinLen = 25#8 := by
    refine BitVec.eq_of_toNat_eq ?_
    rw [dinLen_runOf_pushes, hzero, hlen]
    rfl
  have honly := onlyPushes_runOf_pushes f.toList s
  rw [OnlyPushes, hdin, hdinLen, hlen] at honly
  exact ⟨_, _, honly⟩

theorem takeStep_dinClear (s : State) :
    takeStep (issue .dinClear) s = respond okCode 0#32 { advancePc s with dinLen := 0#8 } :=
  (takeStep_issue (i := .dinClear) rfl s).trans (resultOf_eq rfl)

/-- `LOAD_FRAME` of a whole frame leaves the frame in `DIN` (R80). -/
theorem runOf_loadFrame (f : Frame) (s : State) :
    ∃ code data, runOf (((Pseudo.loadFrame f.toList).expand []).map issue) s =
      { s with din := f, dinLen := 25#8, respCode := code, respData := data, pc := s.pc + 1 + 25 } := by
  obtain ⟨code, data, h⟩ := runOf_pushes_frame f (s := takeStep (issue .dinClear) s) (congrArg State.dinLen (takeStep_dinClear s))
  rw [takeStep_dinClear] at h
  refine ⟨code, data, ?_⟩
  rw [Pseudo.expand, List.map_cons, runOf_cons, takeStep_dinClear]
  exact h

theorem takeStep_decode {s : State} {c : ChannelState} {f : Byte}
    (h : decodeFrame Config.armFlagBit s.din s.dinLen = .decoded c f) :
    takeStep (issue .decode) s =
      respond okCode 0#32 { advancePc s with dec := c.ch, decArm := c.arm, decFlags := f } :=
  (takeStep_issue (i := .decode) rfl s).trans (resultOf_eq (exec_decode_of_decoded (s := advancePc s) h))

theorem flagsByte_getLsbD (k : Fin 2) (a : Bool) : (flagsByte k a).getLsbD k.val = a := by
  revert k a
  decide

/-- The frame of a ChannelState decodes to it (R128). -/
theorem decodeFrame_encodeFrame (k : Fin 2) (c : ChannelState) :
    decodeFrame k (encodeFrame k c) 25#8 = .decoded c (flagsByte k c.arm) := by
  have hch : unpackChannels (payloadBytes (encodeFrame k c)) = c.ch := by
    refine Vector.ext fun i hi => BitVec.eq_of_getLsbD_eq fun b hb => ?_
    rw [unpackChannels_bit _ i b hi hb, encodeFrame_payload _ _ _ (by omega), payload_bit c.ch i b hi hb]
  rw [decodeFrame_of_good k (encodeFrame_header k c) (encodeFrame_footer k c), hch, encodeFrame_flags, flagsByte_getLsbD]

/-! ## The message of `APPLY` (R164 to R174) -/

/-- `n` commands took `s` to `t`, emitted `evs`, and wrote nothing else but the staging and the response. -/
def OnlyStages (n : Nat) (evs : List Event) (s t : State) : Prop :=
  t = { s with
    pmask := t.pmask
    pval := t.pval
    parmValid := t.parmValid
    parm := t.parm
    respCode := t.respCode
    respData := t.respData
    pc := s.pc + n
    events := s.events ++ evs }

theorem OnlyStages.trans {m n : Nat} {evs evs' : List Event} {s u t : State} (h : OnlyStages m evs s u)
    (h' : OnlyStages n evs' u t) : OnlyStages (m + n) (evs ++ evs') s t := by
  refine Eq.trans h' (Eq.trans (congrArg (fun v : State => { v with
    pmask := t.pmask, pval := t.pval, parmValid := t.parmValid, parm := t.parm, respCode := t.respCode, respData := t.respData,
    pc := v.pc + n, events := v.events ++ evs' }) h) ?_)
  simp only [Nat.add_assoc, List.append_assoc]

/-- The update staged for a channel, if there is one (R26). -/
def stagedChannel (s : State) (i : Fin 16) : Option Chan := if s.pmask.getLsbD i.val then some s.pval[i] else none

/-- The arm flag staged, if there is one (R26). -/
def stagedArm (s : State) : Option Bool := if s.parmValid then some s.parm else none

theorem applyStaged_channel (s : State) (i : Fin 16) : (applyStaged s).cur[i] = (stagedChannel s i).getD s.cur[i] := by
  rw [stagedChannel, apply_ite (Option.getD · _)]
  exact mergeStaged_getElem _ _ _ i.val i.isLt

theorem applyStaged_armFlag (s : State) : (applyStaged s).arm = (stagedArm s).getD s.arm := by
  rw [stagedArm, apply_ite (Option.getD · _)]
  rfl

/-- A field's value staged for its target: clamped for a channel, told from 0 for the arm flag (R163, R166, R167, R169). -/
def stageTarget (v : Int) (s : State) : FieldTarget → State
  | .channel i => stageChannel i (lowChan (clamp v)) s
  | .armed => stageArm (v != 0) s
  | .unknown => s

theorem stagedChannel_stageTarget (v : Int) (s : State) (k : Byte) (i : Fin 16) :
    stagedChannel (stageTarget v s (fieldTarget k)) i =
      if k.toNat = i.val then some (lowChan (clamp v)) else stagedChannel s i := by
  rcases fieldTarget_cases k with ⟨hk, e⟩ | ⟨rfl, e⟩ | ⟨hk, e⟩
  · rw [e]
    show (if (s.pmask ||| (1#16 <<< k.toNat)).getLsbD i.val then some (s.pval.set k.toNat (lowChan (clamp v)))[i.val] else none) = _
    rw [stagedMask_getLsbD _ ⟨k.toNat, hk⟩ _ i.isLt, Vector.getElem_set]
    by_cases h : k.toNat = i.val
    · simp [h]
    · simp [h, Ne.symm h, stagedChannel]
  · rw [e, if_neg (by have := i.isLt; simp; omega)]
    rfl
  · rw [e, if_neg (by omega)]
    rfl

theorem stagedArm_stageTarget (v : Int) (s : State) (k : Byte) :
    stagedArm (stageTarget v s (fieldTarget k)) = if k.toNat = 0x10 then some (v != 0) else stagedArm s := by
  rcases fieldTarget_cases k with ⟨hk, e⟩ | ⟨rfl, e⟩ | ⟨hk, e⟩
  · rw [e, if_neg (by omega)]
    rfl
  · rw [e]
    rfl
  · rw [e, if_neg (by omega)]
    rfl

theorem lowChan_clamp_of_neg {v : Int} (h : v < 0) : lowChan (clamp v) = 0#11 := by
  rw [show clamp v = 0 by rw [clamp_eq]; omega]
  rfl

theorem lowChan_clamp_of_gt {v : Int} (h : 2047 < v) : lowChan (clamp v) = 2047#11 := by
  rw [show clamp v = 2047 by rw [clamp_eq]; omega]
  rfl

theorem lowChan_clamp_toNat (v : Int) : ((lowChan (clamp v)).toNat : Int) = min (max v 0) 2047 := by
  obtain ⟨h0, h1⟩ := clamp_bounds v
  rw [lowChan_toNat h0 h1, clamp_eq]

theorem bne_eq_decide_ne (v : Int) : (v != 0) = decide (v ≠ 0) := by
  rw [Bool.eq_iff_iff, decide_eq_true_eq, bne_iff_ne]

theorem clampEvent_of_channel {k : Byte} (hk : k.toNat < 16) (a : Arg) :
    clampEvent (k, a) =
      if clamp a.toInt ≠ a.toInt then some (.clamp k a.toInt (lowChan (clamp a.toInt))) else none := by
  have hk : k.toNat ≤ 15 := by omega
  by_cases h0 : a.toInt < 0
  · have hc : clamp a.toInt ≠ a.toInt := by rw [Ne, clamp_eq_self_iff]; omega
    rw [clampEvent, if_pos ⟨hk, h0⟩, if_pos hc, lowChan_clamp_of_neg h0]
  · rw [clampEvent, if_neg fun h => h0 h.2]
    by_cases h1 : 2047 < a.toInt
    · have hc : clamp a.toInt ≠ a.toInt := by rw [Ne, clamp_eq_self_iff]; omega
      rw [if_pos ⟨hk, h1⟩, if_pos hc, lowChan_clamp_of_gt h1]
    · have hc : ¬clamp a.toInt ≠ a.toInt := by rw [not_not, clamp_eq_self_iff]; omega
      rw [if_neg fun h => h1 h.2, if_neg hc]

theorem clampEvent_of_noChannel {k : Byte} (hk : 16 ≤ k.toNat) (a : Arg) : clampEvent (k, a) = none := by
  have hk : ¬k.toNat ≤ 15 := by omega
  rw [clampEvent, if_neg fun h => hk h.1, if_neg fun h => hk h.1]

/-- A field of an open message: its value staged for its target, and its event (R169). -/
theorem takeStep_msgField {s : State} (h : s.msgOpen = true) (k : Byte) (a : Arg) :
    ∃ d, takeStep (issue (.msgField k a)) s = respond okCode d
      { stageTarget a.toInt (advancePc s) (fieldTarget k) with events := s.events ++ (clampEvent (k, a)).toList } := by
  rw [takeStep_issue (i := .msgField k a) rfl]
  have ho : (advancePc s).msgOpen = true := h
  rcases fieldTarget_cases k with ⟨hk, e⟩ | ⟨rfl, e⟩ | ⟨hk, e⟩
  · have hexec := exec_msgField_of_channel ho hk a
    rw [stageField, sval_eq_toInt] at hexec
    rw [e, clampEvent_of_channel hk]
    by_cases hc : clamp a.toInt ≠ a.toInt
    · rw [if_pos hc] at hexec ⊢
      exact ⟨1#32, resultOf_eq hexec⟩
    · rw [if_neg hc] at hexec ⊢
      rw [Option.toList_none, List.append_nil]
      exact ⟨0#32, resultOf_eq hexec⟩
  · have hexec := exec_msgField_of_armed ho a
    rw [sval_eq_toInt] at hexec
    rw [e, clampEvent_of_noChannel (by decide), Option.toList_none, List.append_nil]
    exact ⟨0#32, resultOf_eq hexec⟩
  · rw [e, clampEvent_of_noChannel (by omega), Option.toList_none, List.append_nil]
    exact ⟨2#32, resultOf_eq (exec_msgField_of_unknown ho hk a)⟩

theorem onlyStages_msgField {s : State} (h : s.msgOpen = true) (k : Byte) (a : Arg) :
    OnlyStages 1 (clampEvent (k, a)).toList s (takeStep (issue (.msgField k a)) s) := by
  obtain ⟨d, hd⟩ := takeStep_msgField h k a
  rw [hd]
  cases fieldTarget k <;> rfl

/-- A field's value counts for its target exactly when no later field has the same target (R172). -/
theorem lastValue_cons {α : Type} (g : Arg → α) (code : Nat) (f : Byte × Arg) (rest : List (Byte × Arg)) (x : Option α) :
    ((lastValue code (f :: rest)).map g).or x =
      ((lastValue code rest).map g).or (if f.1.toNat = code then some (g f.2) else x) := by
  have h : lastValue code (f :: rest) = (lastValue code rest).or (if f.1.toNat = code then some f.2 else none) := by
    rw [lastValue, lastValue, List.reverse_cons, List.find?_append, Option.map_or, List.find?_singleton]
    by_cases hf : f.1.toNat = code <;> simp [hf]
  rw [h, Option.map_or, Option.or_assoc]
  split <;> rfl

/-- What the fields of an open message leave (R169, R172): the last value of each target staged, over what was staged before. -/
structure AfterFields (fields : List (Byte × Arg)) (s t : State) : Prop where
  only : OnlyStages fields.length (fields.filterMap clampEvent) s t
  channel : ∀ i : Fin 16, stagedChannel t i =
    ((lastValue i.val fields).map fun v => lowChan (clamp v.toInt)).or (stagedChannel s i)
  arm : stagedArm t = ((lastValue 0x10 fields).map fun v => v.toInt != 0).or (stagedArm s)

theorem afterFields_runOf (fields : List (Byte × Arg)) {s : State} (h : s.msgOpen = true) :
    AfterFields fields s (runOf ((fields.map fun f => Instr.msgField f.1 f.2).map issue) s) := by
  induction fields generalizing s with
  | nil => exact ⟨by simp [OnlyStages], fun _ => rfl, rfl⟩
  | cons f rest ih =>
    have hstep := onlyStages_msgField h f.1 f.2
    obtain ⟨d, hd⟩ := takeStep_msgField h f.1 f.2
    have hopen : (takeStep (issue (.msgField f.1 f.2)) s).msgOpen = true := (congrArg State.msgOpen hstep).trans h
    obtain ⟨honly, hch, harm⟩ := ih hopen
    refine ⟨?_, fun i => ?_, ?_⟩
    · have hevents : (f :: rest).filterMap clampEvent = (clampEvent f).toList ++ rest.filterMap clampEvent := by
        cases hf : clampEvent f <;> simp [hf]
      rw [hevents, List.length_cons, Nat.add_comm]
      exact hstep.trans honly
    · rw [lastValue_cons]
      exact (hch i).trans (congrArg (Option.or _)
        ((congrArg (stagedChannel · i) hd).trans (stagedChannel_stageTarget f.2.toInt (advancePc s) f.1 i)))
    · rw [lastValue_cons]
      exact harm.trans (congrArg (Option.or _)
        ((congrArg stagedArm hd).trans (stagedArm_stageTarget f.2.toInt (advancePc s) f.1)))

/-- A commit publishes each channel and the arm flag as staged, or as they were (R170). -/
theorem takeStep_msgCommit_values {s : State} (h : s.msgOpen = true) :
    ∃ (ch : Channels) (a : Bool), takeStep (issue .msgCommit) s = respond okCode 0#32
        (clearStaging false { advancePc s with cur := ch, arm := a }) ∧
      (∀ i : Fin 16, ch[i] = (stagedChannel s i).getD s.cur[i]) ∧ a = (stagedArm s).getD s.arm :=
  ⟨_, _, takeStep_msgCommit h, applyStaged_channel s, applyStaged_armFlag s⟩

/-- What is left of an open message, once it is published as `ch` and `a` and closed (R170). -/
theorem OnlyStages.closed {n : Nat} {evs : List Event} {s u : State} (h : OnlyStages n evs s u) (ch : Channels) (a : Bool) :
    respond okCode 0#32 (clearStaging false { advancePc u with cur := ch, arm := a }) =
      afterOk 0#32 { s with
        cur := ch
        arm := a
        msgOpen := false
        pmask := 0#16
        pval := u.pval
        parmValid := false
        parm := u.parm
        pc := s.pc + n + 1
        events := s.events ++ evs } :=
  (congrArg (fun v => respond okCode 0#32 (clearStaging false { advancePc v with cur := ch, arm := a })) h :)

theorem takeStep_msgBegin {s : State} (h : s.msgOpen = false) :
    takeStep (issue .msgBegin) s = respond okCode 0#32 (clearStaging true (advancePc s)) :=
  (takeStep_issue (i := .msgBegin) rfl s).trans
    (resultOf_eq (exec_msgBegin_of_closed (s := advancePc s) (ne_true_of_eq_false h)))

theorem stagedChannel_msgBegin {s : State} (h : s.msgOpen = false) (i : Fin 16) :
    stagedChannel (takeStep (issue .msgBegin) s) i = none := by
  rw [takeStep_msgBegin h]
  exact if_neg (by simp)

theorem stagedArm_msgBegin {s : State} (h : s.msgOpen = false) : stagedArm (takeStep (issue .msgBegin) s) = none := by
  rw [takeStep_msgBegin h]
  rfl

/-- A whole message: `MSG_BEGIN`, the fields, and the command that closes it (R80). -/
theorem runOf_message (fields : List (Byte × Arg)) (last : Instr) (s : State) :
    runOf ((Instr.msgBegin :: fields.map (fun f => Instr.msgField f.1 f.2) ++ [last]).map issue) s =
      takeStep (issue last)
        (runOf ((fields.map fun f => Instr.msgField f.1 f.2).map issue) (takeStep (issue .msgBegin) s)) := by
  rw [List.map_append, runOf_append]
  rfl

/-! ## The loop of `STOP` (R80, R272) -/

/-- The frames on the wire and the one that a handoff in progress may still add. -/
def framesDue (s : State) : Nat := s.wire.length + if s.txState = .transmitting then 1 else 0

theorem framesDue_le (s : State) : framesDue s ≤ s.wire.length + 1 := by
  unfold framesDue
  split <;> omega

/-- With transmission disabled, `n` commands and the other agents' steps took `s` to `t`: no start came, so an Idle engine stays Idle and
puts no frame on the wire (R194, R272). -/
structure Drains (n : Nat) (s t : State) : Prop where
  disabled : t.txEn = false
  pc : t.pc = s.pc + n
  frames : framesDue t ≤ framesDue s
  idle : s.txState = .idle → t.txState = .idle ∧ t.wire = s.wire

theorem Drains.refl {s : State} (h : s.txEn = false) : Drains 0 s s := ⟨h, rfl, le_rfl, fun hi => ⟨hi, rfl⟩⟩

theorem Drains.trans {m n : Nat} {s u t : State} (h : Drains m s u) (h' : Drains n u t) : Drains (m + n) s t where
  disabled := h'.disabled
  pc := by rw [h'.pc, h.pc, Nat.add_assoc]
  frames := h'.frames.trans h.frames
  idle hi := by
    obtain ⟨hu, hwire⟩ := h.idle hi
    exact ⟨(h'.idle hu).1, (h'.idle hu).2.trans hwire⟩

theorem Took.drains {s t : State} {x : Input} (h : Took s x t) (hs : s.txEn = false) (hx : ∀ w, x ≠ .command w) :
    Drains 0 s t := by
  cases h with
  | illegal w | command w => exact absurd rfl (hx w)
  | tickIgnored | startPassed | handoffPassed => exact .refl hs
  | overrun he | latched he => exact absurd (hs.symm.trans he) Bool.false_ne_true
  | started he => simp [startEnabled, hs] at he
  | delivered ht => exact ⟨hs, rfl, by simp [framesDue, ht], fun hi => by simp [ht] at hi⟩
  | failed ht => exact ⟨hs, rfl, by simp [framesDue], fun hi => by simp [ht] at hi⟩
  | reset => exact ⟨rfl, rfl, Nat.le_add_right _ _, fun _ => ⟨rfl, rfl⟩⟩

theorem drains_runOf {xs : List Input} {s : State} (hs : s.txEn = false) (hxs : otherAgents xs) : Drains 0 s (runOf xs s) :=
  runOf_keeps (P := Drains 0 s) (fun x hx t ht => ht.trans ((takeStep_took x t).drains ht.disabled (hxs x hx))) (.refl hs)

theorem drains_statusGet {s : State} (hs : s.txEn = false) (d : BitVec 32) : Drains 1 s (respond okCode d (advancePc s)) :=
  ⟨hs, rfl, le_rfl, fun hi => ⟨hi, rfl⟩⟩

/-- After a turn of the handoff no handoff is in progress (R196). -/
theorem txState_handoff (r : Answer) (s : State) : (takeStep (.handoff r) s).txState = .idle := by
  have h := takeStep_took (.handoff r) s
  generalize takeStep (.handoff r) s = t at h
  cases h with
  | handoffPassed _ hi => exact hi
  | delivered | failed => rfl

theorem txState_runOf_of_handoff {xs : List Input} {s : State} {r : Answer} (hs : s.txEn = false) (hxs : otherAgents xs)
    (hr : .handoff r ∈ xs) : (runOf xs s).txState = .idle := by
  obtain ⟨before, after, rfl⟩ := List.append_of_mem hr
  have hbefore := drains_runOf hs fun x hx => hxs x (List.mem_append_left _ hx)
  have hstep := (takeStep_took (.handoff r) (runOf before s)).drains hbefore.disabled (hxs _ hr)
  rw [runOf_append, runOf_cons]
  exact ((drains_runOf hstep.disabled fun x hx => hxs x (by simp [hx])).idle (txState_handoff r _)).1

theorem stopDone_statusWord (s : State) : stopDone (statusWord s) = true ↔ s.txState = .idle := by
  rw [stopDone_iff, statusWord_txState]
  cases s.txState <;> simp [TxState.bit]

theorem not_stopDone_statusWord (s : State) : stopDone (statusWord s) = false ↔ s.txState = .transmitting := by
  rw [← Bool.not_eq_true, stopDone_statusWord]
  cases s.txState <;> simp

theorem stopDone_eq_false_iff (d : BitVec 32) : stopDone d = false ↔ d.getLsbD 1 = true := by
  rw [stopDone, Bool.not_eq_false']

/-- The loop went through all its turns and no answer ended it: no handoff came, and the engine is still Transmitting. -/
structure StillPolling (turns : List (List Input)) (s t : State) (answers : List (BitVec 32)) : Prop where
  busy : ∀ d ∈ answers, stopDone d = false
  length : answers.length = turns.length
  transmitting : s.txState = .transmitting ∨ turns ≠ [] → t.txState = .transmitting
  noHandoff : ∀ turn ∈ turns, ∀ r, Input.handoff r ∉ turn

/-- The last answer, and no other, ended the loop. -/
structure StoppedPolling (t : State) (before : List (BitVec 32)) (last : BitVec 32) : Prop where
  busy : ∀ d ∈ before, stopDone d = false
  done : stopDone last = true
  idle : t.txState = .idle

theorem StillPolling.cons {turn : List Input} {rest : List (List Input)} {s v t : State} {d : BitVec 32} {new : List (BitVec 32)}
    (h : StillPolling rest v t new) (hd : stopDone d = false) (hv : v.txState = .transmitting)
    (hturn : ∀ r, Input.handoff r ∉ turn) : StillPolling (turn :: rest) s t (d :: new) where
  busy := List.forall_mem_cons.2 ⟨hd, h.busy⟩
  length := congrArg (· + 1) h.length
  transmitting _ := h.transmitting (.inl hv)
  noHandoff := List.forall_mem_cons.2 ⟨hturn, h.noHandoff⟩

/-- What the loop of `STOP` leaves, with transmission disabled and `answers` so far. -/
theorem stopLoop_ends (turns : List (List Input)) {answers : List (BitVec 32)} {s : State}
    (hbusy : ∀ d ∈ answers, stopDone d = false) (hs : s.txEn = false) (hturns : ∀ turn ∈ turns, otherAgents turn) :
    ∃ t new, stopLoop turns answers s = (t, answers ++ new) ∧ Drains new.length s t ∧
      (StillPolling turns s t new ∨ ∃ before last, new = before ++ [last] ∧ StoppedPolling t before last) := by
  induction turns generalizing answers s with
  | nil => exact ⟨s, [], by rw [stopLoop, List.append_nil], .refl hs, .inl ⟨by simp, rfl, by simp, by simp⟩⟩
  | cons turn rest ih =>
    have hturn := hturns turn List.mem_cons_self
    have hturnDrains := drains_runOf hs hturn
    rw [stopLoop_busy hbusy]
    generalize hu : runOf turn s = u at hturnDrains ⊢
    have hdrains := hturnDrains.trans (drains_statusGet hturnDrains.disabled (statusWord u))
    cases hdone : stopDone (statusWord u) with
    | true =>
      have hidle : u.txState = .idle := (stopDone_statusWord u).1 hdone
      rw [stopLoop_done hbusy hdone]
      exact ⟨_, [statusWord u], rfl, hdrains, .inr ⟨[], statusWord u, rfl, by simp, hdone, hidle⟩⟩
    | false =>
      have hsending : u.txState = .transmitting := (not_stopDone_statusWord u).1 hdone
      have hnone : ∀ r, Input.handoff r ∉ turn := fun r hr =>
        absurd (hsending.symm.trans (hu ▸ txState_runOf_of_handoff hs hturn hr)) (by decide)
      have hbusy' : ∀ d ∈ answers ++ [statusWord u], stopDone d = false :=
        List.forall_mem_append.2 ⟨hbusy, List.forall_mem_singleton.2 hdone⟩
      obtain ⟨t, new, hloop, hrest, hends⟩ :=
        ih hbusy' hdrains.disabled fun turn' h => hturns turn' (List.mem_cons_of_mem _ h)
      refine ⟨t, statusWord u :: new, by rw [hloop, List.append_assoc]; rfl, ?_, ?_⟩
      · rw [List.length_cons, Nat.add_comm]
        exact hdrains.trans hrest
      · rcases hends with hstill | ⟨before, last, rfl, hstopped⟩
        · exact .inl (hstill.cons hdone hsending hnone)
        · exact .inr ⟨statusWord u :: before, last, rfl,
            List.forall_mem_cons.2 ⟨hdone, hstopped.busy⟩, hstopped.done, hstopped.idle⟩

theorem takeStep_txEnable_zero (s : State) :
    takeStep (issue (.txEnable 0#32)) s = respond okCode 0#32 { advancePc s with txEn := false, tickPending := false } :=
  (takeStep_issue (i := .txEnable 0#32) rfl s).trans (resultOf_eq rfl)

end Sys2Proof.Machine

open Sys2Proof Sys2Proof.Machine

/-- Settles O38: `LOAD_FRAME` leaves the frame in `DIN`, and a frame decodes to the ChannelState it encodes. -/
theorem loadedFrameDecodesToItsChannelState : Obligations.LoadedFrameDecodesToItsChannelState := by
  intro s c
  have hdecode := decodeFrame_encodeFrame Config.armFlagBit c
  generalize encodeFrame Config.armFlagBit c = f at hdecode ⊢
  obtain ⟨code, data, hload⟩ := runOf_loadFrame f s
  refine ⟨_, rfl, ?_⟩
  rw [List.map_append, runOf_append, hload, List.map_singleton, runOf_cons, runOf_nil, takeStep_decode hdecode]
  rfl

/-- Settles O40: the commit publishes what the fields left staged, the last value of each target. -/
theorem appliedMessagePublishesItsLastValues : Obligations.AppliedMessagePublishesItsLastValues := by
  intro s fields hclosed
  have hopen : (takeStep (issue .msgBegin) s).msgOpen = true := congrArg State.msgOpen (takeStep_msgBegin hclosed)
  obtain ⟨honly, hch, harm⟩ := afterFields_runOf fields hopen
  have hrun := runOf_message fields .msgCommit s
  generalize runOf ((fields.map fun f => Instr.msgField f.1 f.2).map issue) (takeStep (issue .msgBegin) s) = u
    at honly hch harm hrun
  obtain ⟨ch, a, hcommit, hcommitCh, ha⟩ := takeStep_msgCommit_values ((congrArg State.msgOpen honly).trans hopen)
  rw [takeStep_msgBegin hclosed] at honly
  have hcur : u.cur = s.cur := (congrArg State.cur honly :)
  have harmFlag : u.arm = s.arm := (congrArg State.arm honly :)
  simp only [hch, stagedChannel_msgBegin hclosed, Option.or_none, hcur] at hcommitCh
  rw [harm, stagedArm_msgBegin hclosed, Option.or_none, harmFlag] at ha
  refine ⟨_, hrun.trans (hcommit.trans (honly.closed ch a)), ?_, fun i hi => ?_, ?_⟩
  · rw [hclosed, show s.pc + fields.length + 2 = s.pc + 1 + fields.length + 1 by omega]
    rfl
  · have h : ch[i] = _ := hcommitCh ⟨i, hi⟩
    cases hv : lastValue i fields with
    | none =>
      rw [hv] at h
      exact h
    | some v =>
      rw [hv] at h
      exact (congrArg (fun c : Chan => (c.toNat : Int)) h).trans (lowChan_clamp_toNat v.toInt)
  · cases hv : lastValue 0x10 fields with
    | none =>
      rw [hv] at ha
      exact ha
    | some v =>
      rw [hv] at ha
      exact ha.trans (bne_eq_decide_ne v.toInt)

/-- Settles O59: with transmission disabled no start comes, so the loop lasts as long as the one handoff in progress. -/
theorem stopPollsUntilTheEngineIsIdle : Obligations.StopPollsUntilTheEngineIsIdle := by
  intro s turns hturns
  have hsent := takeStep_txEnable_zero s
  have hdisabled : (takeStep (issue (.txEnable 0#32)) s).txEn = false := congrArg State.txEn hsent
  obtain ⟨t, answers, hloop, hdrains, hends⟩ := stopLoop_ends turns (answers := []) (by simp) hdisabled hturns
  have hpc : t.pc = s.pc + 1 + answers.length := hdrains.pc.trans (congrArg (State.pc · + answers.length) hsent)
  have hframes : framesDue t ≤ framesDue s := hdrains.frames.trans_eq (congrArg framesDue hsent :)
  have hwire : t.wire.length ≤ s.wire.length + 1 :=
    (Nat.le_add_right _ _).trans (hframes.trans (framesDue_le s))
  refine ⟨t, answers, hloop, hdrains.disabled, hpc, hwire, ?_⟩
  simp only [← stopDone_iff, ← stopDone_eq_false_iff]
  rcases hends with hstill | ⟨before, last, rfl, hstopped⟩
  · have hnone : ¬∃ d ∈ answers, stopDone d = true := by simpa using hstill.busy
    refine ⟨fun d hd => hstill.busy d (List.mem_of_mem_dropLast hd), fun h => absurd h hnone, fun _ => ?_, ?_⟩
    · exact ⟨congrArg _ (pollUntilIdle_busy hstill.busy), hstill.length, fun h => hstill.transmitting (.inr h)⟩
    · rintro ⟨turn, hturn, r, hr⟩
      exact absurd hr (hstill.noHandoff turn hturn r)
  · have hsome : ∃ d ∈ before ++ [last], stopDone d = true := ⟨last, by simp, hstopped.done⟩
    refine ⟨?_, fun _ => ⟨?_, hstopped.idle, fun later hlater => ?_⟩, fun h => ?_, fun _ => hsome⟩
    · rw [List.dropLast_concat]
      exact hstopped.busy
    · rw [List.length_append]
      exact congrArg _ (pollUntilIdle_done hstopped.busy hstopped.done)
    · exact ((drains_runOf hdrains.disabled hlater).idle hstopped.idle).2
    · have := h last (by simp)
      simp [hstopped.done] at this

end

section
/-!
Proof that no step observes a stale register (40_frame_codec.md R120, 42_command_ingest.md R168).
-/

namespace Sys2Proof.Machine

/-! ## The registers that can be stale (R120, R168) -/

/-- The state with other contents of `PVAL`, `PARM` and `DIN` (R26, R28). -/
def withStored (p : Channels) (a : Bool) (d : Frame) (s : State) : State := { s with pval := p, parm := a, din := d }

/-- These contents are those of `s` wherever they are not stale: a channel with its mask bit set, the arm flag when it is valid,
the bytes below `DIN_LEN` (93_implementation_defined.md items 26 and 27). -/
structure SameLive (s : State) (p : Channels) (a : Bool) (d : Frame) : Prop where
  pval : ∀ (i : Nat) (h : i < 16), s.pmask.getLsbD i = true → p[i] = s.pval[i]
  parm : s.parmValid = true → a = s.parm
  din : ∀ (j : Nat) (h : j < 25), j < s.dinLen.toNat → d[j] = s.din[j]

theorem hideStale_pval (s : State) (i : Nat) (h : i < 16) :
    (hideStale s).pval[i] = if s.pmask.getLsbD i then s.pval[i] else 0#11 := by
  rw [hideStale]
  exact (mergeStaged_getElem _ _ _ i h).trans (by simp)

theorem hideStale_din (s : State) (j : Nat) (h : j < 25) :
    (hideStale s).din[j] = if j < s.dinLen.toNat then s.din[j] else 0x00#8 := by
  rw [hideStale]
  exact Vector.getElem_ofFn h

/-- Contents that differ only where they are stale are hidden alike. -/
theorem hideStale_withStored {s : State} {p : Channels} {a : Bool} {d : Frame} (h : SameLive s p a d) :
    hideStale (withStored p a d s) = hideStale s := by
  have hp : (hideStale (withStored p a d s)).pval = (hideStale s).pval := Vector.ext fun i hi => by
    rw [hideStale_pval, hideStale_pval]
    exact ite_congr rfl (h.pval i hi) fun _ => rfl
  have ha : (s.parmValid && a) = (s.parmValid && s.parm) := by
    cases hv : s.parmValid with
    | false => rfl
    | true => rw [h.parm hv]
  have hd : (hideStale (withStored p a d s)).din = (hideStale s).din := Vector.ext fun j hj => by
    rw [hideStale_din, hideStale_din]
    exact ite_congr rfl (h.din j hj) fun _ => rfl
  show withStored (hideStale (withStored p a d s)).pval (s.parmValid && a) (hideStale (withStored p a d s)).din s = _
  rw [hp, ha, hd]
  rfl

theorem withStored_hideStale (p : Channels) (a : Bool) (d : Frame) (s : State) :
    withStored p a d (hideStale s) = withStored p a d s := by
  simp only [withStored, hideStale]

theorem withStored_self (t : State) : withStored t.pval t.parm t.din t = t := rfl

/-- States alike but for stale registers: one is the other with contents that differ where they are stale. -/
theorem sameLive_of_hideStale_eq {s t : State} (h : hideStale s = hideStale t) :
    t = withStored t.pval t.parm t.din s ∧ SameLive s t.pval t.parm t.din := by
  have ht : t = withStored t.pval t.parm t.din s := by
    rw [← withStored_hideStale, h, withStored_hideStale, withStored_self]
  have hmask : t.pmask = s.pmask := (congrArg State.pmask ht :)
  have hvalid : t.parmValid = s.parmValid := (congrArg State.parmValid ht :)
  have hlen : t.dinLen = s.dinLen := (congrArg State.dinLen ht :)
  refine ⟨ht, fun i hi hm => ?_, fun hv => ?_, fun j hj hl => ?_⟩
  · have hi' := congrArg (fun u : State => u.pval[i]) h
    simpa only [hideStale_pval, hmask, hm, if_true] using hi'.symm
  · have hparm : (s.parmValid && s.parm) = (t.parmValid && t.parm) := congrArg State.parm h
    simpa only [hvalid, hv, Bool.true_and] using hparm.symm
  · have hj' := congrArg (fun u : State => u.din[j]) h
    simpa only [hideStale_din, hlen, hl, if_true] using hj'.symm

/-! ## What a command leaves in them -/

section Live

variable {s : State} {p : Channels} {a : Bool} {d : Frame}

theorem sameLive_advancePc (h : SameLive s p a d) : SameLive (advancePc s) p a d := ⟨h.pval, h.parm, h.din⟩

theorem sameLive_respond (h : SameLive s p a d) (code : Byte) (data : BitVec 32) : SameLive (respond code data s) p a d :=
  ⟨h.pval, h.parm, h.din⟩

theorem sameLive_raise (h : SameLive s p a d) (e : Contract) : SameLive (raise e s) p a d := ⟨h.pval, h.parm, h.din⟩

theorem sameLive_of_kept {t : State} (h : SameLive s p a d) (hk : CommandElementsKept s t) : SameLive t p a d where
  pval := by rw [hk.pmask, hk.pval]; exact h.pval
  parm := by rw [hk.parmValid, hk.parm]; exact h.parm
  din := by rw [hk.dinLen, hk.din]; exact h.din

theorem sameLive_clearStaging (h : SameLive s p a d) (opened : Bool) : SameLive (clearStaging opened s) p a d where
  pval := fun i _ hm => absurd hm (by simp)
  parm := nofun
  din := h.din

/-- A field stages the one channel that it makes live (R169). -/
theorem sameLive_stageChannel (h : SameLive s p a d) (k : Fin 16) (c : Chan) :
    SameLive (stageChannel k c s) (p.set k c) a d where
  pval := fun i hi hm => by
    show (p.set k c)[i] = (s.pval.set k c)[i]
    rw [Vector.getElem_set, Vector.getElem_set]
    by_cases hk : k.val = i
    · rw [if_pos hk, if_pos hk]
    · have hm' : (s.pmask.getLsbD i || i == k.val) = true := (stagedMask_getLsbD _ _ _ hi).symm.trans hm
      rw [if_neg hk, if_neg hk]
      exact h.pval i hi (by simpa [Ne.symm hk] using hm')
  parm := h.parm
  din := h.din

theorem sameLive_stageArm (h : SameLive s p a d) (b : Bool) : SameLive (stageArm b s) p b d where
  pval := h.pval
  parm := fun _ => rfl
  din := h.din

theorem sameLive_withPublished (h : SameLive s p a d) (cur : Channels) (arm : Bool) :
    SameLive { s with cur := cur, arm := arm } p a d := ⟨h.pval, h.parm, h.din⟩

/-- A commit reads the live staging alone (R170). -/
theorem applyStaged_withStored (h : SameLive s p a d) :
    applyStaged (withStored p a d s) = withStored p a d (applyStaged s) := by
  have hcur : mergeStaged s.pmask p s.cur = mergeStaged s.pmask s.pval s.cur := Vector.ext fun i hi => by
    rw [mergeStaged_getElem _ _ _ i hi, mergeStaged_getElem _ _ _ i hi]
    exact ite_congr rfl (h.pval i hi) fun _ => rfl
  have harm : (if s.parmValid then a else s.arm) = if s.parmValid then s.parm else s.arm :=
    ite_congr rfl h.parm fun _ => rfl
  show withStored p a d { s with
    cur := mergeStaged s.pmask p s.cur, arm := if s.parmValid then a else s.arm } = _
  rw [hcur, harm]
  rfl

/-- The state after a push of the byte `b` (R122). -/
def pushed (b : Byte) (s : State) : State :=
  { s with din := pushedBytes b s.dinLen s.din, dinLen := pushedLen s.dinLen }

/-- A push writes the one byte that it makes live (R122). -/
theorem sameLive_pushed (h : SameLive s p a d) (b : Byte) : SameLive (pushed b s) p a (pushedBytes b s.dinLen d) where
  pval := h.pval
  parm := h.parm
  din := fun j hj hl => by
    show (pushedBytes b s.dinLen d)[j] = (pushedBytes b s.dinLen s.din)[j]
    have hl' : j < min (s.dinLen.toNat + 1) 255 := (pushedLen_toNat s.dinLen) ▸ hl
    rw [pushedBytes_getElem _ _ _ _ hj, pushedBytes_getElem _ _ _ _ hj]
    exact ite_congr rfl (fun _ => rfl) fun hne => h.din j hj (by omega)

theorem sameLive_dinClear (h : SameLive s p a d) : SameLive { s with dinLen := 0#8 } p a d where
  pval := h.pval
  parm := h.parm
  din := fun j _ hl => absurd hl (Nat.not_lt_zero j)

/-- A full count leaves no byte of `DIN` stale. -/
theorem SameLive.din_eq (h : SameLive s p a d) (hlen : s.dinLen = 25#8) : d = s.din :=
  Vector.ext fun j hj => h.din j hj (by rw [hlen]; exact hj)

/-! ## Each command -/

/-- From `s` and from `s` with `p`, `a` and `d` stored, `i` leaves states alike but for stale registers. -/
def IgnoresStale (i : Instr) (s : State) (p : Channels) (a : Bool) (d : Frame) : Prop :=
  ∃ t p' a' d', exec i s = .next t ∧ exec i (withStored p a d s) = .next (withStored p' a' d' t) ∧ SameLive t p' a' d'

theorem ignoresStale_of_complete {i : Instr} {data : BitVec 32} {t : State} {p' : Channels} {a' : Bool} {d' : Frame}
    (hs : exec i s = complete data t) (hstored : exec i (withStored p a d s) = complete data (withStored p' a' d' t))
    (h : SameLive t p' a' d') : IgnoresStale i s p a d :=
  ⟨respond okCode data t, p', a', d', hs, hstored, sameLive_respond h okCode data⟩

theorem ignoresStale_of_fail {i : Instr} {e : Contract} (hs : exec i s = fail e s)
    (hstored : exec i (withStored p a d s) = fail e (withStored p a d s)) (h : SameLive s p a d) : IgnoresStale i s p a d :=
  ⟨raise e s, p, a, d, hs, hstored, sameLive_raise h e⟩

theorem ignoresStale_of_readElement {width n : Nat} {i : Instr} {idx : Byte} {file : State → Vector (BitVec width) n}
    (hi : ∀ s, exec i s = readElement (file s) idx s) (hfile : file (withStored p a d s) = file s) (h : SameLive s p a d) :
    IgnoresStale i s p a d := by
  rcases index?_cases n idx with ⟨hidx, -⟩ | ⟨hidx, -⟩
  · refine ignoresStale_of_complete ((hi s).trans (readElement_of_lt _ hidx s)) ?_ h
    rw [hi, hfile, readElement_of_lt _ hidx, complete_eq]
  · refine ignoresStale_of_fail (e := .indexOutOfRange idx) ((hi s).trans (readElement_of_ge _ hidx s)) ?_ h
    rw [hi, readElement_of_ge _ hidx]
    rfl

theorem ignoresStale_chSet (h : SameLive s p a d) (k : Byte) (v : Arg) : IgnoresStale (.chSet k v) s p a d := by
  rcases Nat.lt_or_ge k.toNat 16 with hk | hk
  · by_cases hv : outOfChannelRange (sval v) = true
    · exact ignoresStale_of_fail (exec_chSet_of_badValue hk hv _) (exec_chSet_of_badValue hk hv _) h
    · exact ⟨_, p, a, d, exec_chSet_of_legal hk hv _, exec_chSet_of_legal hk hv _, h.pval, h.parm, h.din⟩
  · exact ignoresStale_of_fail (exec_chSet_of_badIndex hk v _) (exec_chSet_of_badIndex hk v _) h

/-- A decode reads `DIN` only when no byte of it is stale (R125). -/
theorem decodeFrame_sameLive (h : SameLive s p a d) :
    decodeFrame Config.armFlagBit d s.dinLen = decodeFrame Config.armFlagBit s.din s.dinLen := by
  by_cases hlen : s.dinLen = 25#8
  · rw [h.din_eq hlen]
  · rw [decodeFrame_of_badLength _ d hlen, decodeFrame_of_badLength _ s.din hlen]

theorem decodeViolation_withStored (h : SameLive s p a d) {e : DecodeError}
    (he : decodeFrame Config.armFlagBit s.din s.dinLen = .failed e) :
    decodeViolation (withStored p a d s) e = decodeViolation s e := by
  cases e with
  | badLength => rfl
  | badHeader | badFooter =>
    have hlen : s.dinLen = 25#8 := of_not_not fun hne => by
      rw [decodeFrame_of_badLength _ _ hne] at he
      cases he
    rw [decodeViolation, decodeViolation, ← h.din_eq hlen]
    rfl

theorem ignoresStale_decode (h : SameLive s p a d) : IgnoresStale .decode s p a d := by
  have hframe : decodeFrame Config.armFlagBit (withStored p a d s).din (withStored p a d s).dinLen =
    decodeFrame Config.armFlagBit s.din s.dinLen := decodeFrame_sameLive h
  cases hd : decodeFrame Config.armFlagBit s.din s.dinLen with
  | failed e =>
    refine ignoresStale_of_fail (exec_decode_of_failed hd) ?_ h
    rw [exec_decode_of_failed (hframe.trans hd), decodeViolation_withStored h hd]
  | decoded c f =>
    have hlive : SameLive { s with dec := c.ch, decArm := c.arm, decFlags := f } p a d := ⟨h.pval, h.parm, h.din⟩
    exact ignoresStale_of_complete (exec_decode_of_decoded hd) (exec_decode_of_decoded (hframe.trans hd)) hlive

theorem ignoresStale_msgBegin (h : SameLive s p a d) : IgnoresStale .msgBegin s p a d := by
  by_cases ho : s.msgOpen = true
  · exact ignoresStale_of_fail (exec_msgBegin_of_open ho) (exec_msgBegin_of_open (s := withStored p a d s) ho) h
  · exact ignoresStale_of_complete (exec_msgBegin_of_closed ho) (exec_msgBegin_of_closed (s := withStored p a d s) ho)
      (sameLive_clearStaging h true)

theorem ignoresStale_msgField (h : SameLive s p a d) (k : Byte) (v : Arg) : IgnoresStale (.msgField k v) s p a d := by
  by_cases ho : s.msgOpen = true
  · have hstored : (withStored p a d s).msgOpen = true := ho
    rcases fieldTarget_cases k with ⟨hk, -⟩ | ⟨rfl, -⟩ | ⟨hk, -⟩
    · have hstage := sameLive_stageChannel h ⟨k.toNat, hk⟩ (lowChan (clamp (sval v)))
      rw [IgnoresStale, exec_msgField_of_channel ho hk, exec_msgField_of_channel hstored hk]
      by_cases hc : clamp (sval v) ≠ sval v
      · exact ⟨_, _, a, d, if_pos hc, if_pos hc, hstage.pval, hstage.parm, hstage.din⟩
      · exact ⟨_, _, a, d, if_neg hc, if_neg hc, hstage.pval, hstage.parm, hstage.din⟩
    · exact ignoresStale_of_complete (exec_msgField_of_armed ho v) (exec_msgField_of_armed hstored v) (sameLive_stageArm h _)
    · exact ignoresStale_of_complete (exec_msgField_of_unknown ho hk v) (exec_msgField_of_unknown hstored hk v) h
  · exact ignoresStale_of_fail (exec_msgField_of_closed ho k v) (exec_msgField_of_closed (s := withStored p a d s) ho k v) h

theorem exec_msgCommit_of_closed (ho : ¬s.msgOpen = true) : exec .msgCommit s = fail (.sequenceError .msgCommit) s :=
  if_neg ho

theorem ignoresStale_msgCommit (h : SameLive s p a d) : IgnoresStale .msgCommit s p a d := by
  by_cases ho : s.msgOpen = true
  · have happlied : SameLive (applyStaged s) p a d := sameLive_withPublished h _ _
    have hstored := exec_msgCommit_of_open (s := withStored p a d s) ho
    rw [applyStaged_withStored h] at hstored
    exact ignoresStale_of_complete (exec_msgCommit_of_open ho) hstored (sameLive_clearStaging happlied false)
  · exact ignoresStale_of_fail (exec_msgCommit_of_closed ho) (exec_msgCommit_of_closed (s := withStored p a d s) ho) h

theorem ignoresStale_msgAbort (h : SameLive s p a d) : IgnoresStale .msgAbort s p a d :=
  let ⟨hp, ha, hd⟩ := sameLive_clearStaging h false
  ⟨_, p, a, d, rfl, rfl, hp, ha, hd⟩

theorem ignoresStale (h : SameLive s p a d) (i : Instr) : IgnoresStale i s p a d := by
  cases i with
  | chGet => exact ignoresStale_of_readElement (file := State.cur) (fun _ => rfl) rfl h
  | snapGet => exact ignoresStale_of_readElement (file := State.snap) (fun _ => rfl) rfl h
  | foutGet => exact ignoresStale_of_readElement (file := State.fout) (fun _ => rfl) rfl h
  | decGet => exact ignoresStale_of_readElement (file := State.dec) (fun _ => rfl) rfl h
  | txfGet => exact ignoresStale_of_readElement (file := State.txbuf) (fun _ => rfl) rfl h
  | chSet k v => exact ignoresStale_chSet h k v
  | dinClear => exact ignoresStale_of_complete rfl rfl (sameLive_dinClear h)
  | dinPush v => exact ignoresStale_of_complete rfl rfl (sameLive_pushed h (argByte v))
  | decode => exact ignoresStale_decode h
  | msgBegin => exact ignoresStale_msgBegin h
  | msgField k v => exact ignoresStale_msgField h k v
  | msgCommit => exact ignoresStale_msgCommit h
  | msgAbort => exact ignoresStale_msgAbort h
  | nop | armGet | snapshot | snapArmGet | encode | decFlagsGet | txEnable | statusGet | faultGet =>
    exact ⟨_, p, a, d, rfl, rfl, h.pval, h.parm, h.din⟩

/-! ## Each step -/

theorem tickStep_withStored : tickStep (withStored p a d s) = withStored p a d (tickStep s) := by
  by_cases he : s.txEn = true
  · by_cases hp : s.tickPending = true
    · rw [tickStep_of_pending he hp, tickStep_of_pending (s := withStored p a d s) he hp]
      rfl
    · rw [tickStep_of_notPending he hp, tickStep_of_notPending (s := withStored p a d s) he hp]
      rfl
  · rw [tickStep_of_disabled he, tickStep_of_disabled (s := withStored p a d s) he]

theorem startStep_withStored : startStep (withStored p a d s) = withStored p a d (startStep s) := by
  by_cases h : startEnabled s = true
  · rw [startStep_of_enabled h, startStep_of_enabled (s := withStored p a d s) h]
    rfl
  · rw [startStep_of_disabled h, startStep_of_disabled (s := withStored p a d s) h]

theorem handoffStep_withStored (r : Answer) : handoffStep r (withStored p a d s) = withStored p a d (handoffStep r s) := by
  by_cases h : handoffEnabled s = true
  · rw [handoffStep_of_enabled h, handoffStep_of_enabled (s := withStored p a d s) h]
    cases r <;> rfl
  · rw [handoffStep_of_disabled h, handoffStep_of_disabled (s := withStored p a d s) h]

/-- The other agents' steps but reset leave every element that can be stale, or that says what is, as it was. -/
theorem sameLive_takeStep_of_no_command {x : Input} (h : SameLive s p a d) (hx : x ≠ .reset) (hw : ∀ w, x ≠ .command w) :
    SameLive (takeStep x s) p a d := by
  refine sameLive_of_kept h (of_not_not fun hne => ?_)
  obtain ⟨-, ⟨w, rfl, -⟩, -⟩ := (takeStep_took x s).issued_of_not_kept hx hne
  exact hw w rfl

theorem takeStep_withStored_of_illegal {w : CmdWord} (hd : decode w = none) :
    takeStep (.command w) (withStored p a d s) = withStored p a d (takeStep (.command w) s) := by
  rw [takeStep_of_illegal hd, takeStep_of_illegal hd]
  rfl

/-- A step from states alike but for stale registers leaves such states again. -/
theorem takeStep_withStored (h : SameLive s p a d) (x : Input) :
    ∃ p' a' d', takeStep x (withStored p a d s) = withStored p' a' d' (takeStep x s) ∧ SameLive (takeStep x s) p' a' d' := by
  cases x with
  | command w =>
    cases hd : decode w with
    | none =>
      refine ⟨p, a, d, takeStep_withStored_of_illegal hd, ?_⟩
      rw [takeStep_of_illegal hd]
      exact sameLive_raise (sameLive_advancePc h) _
    | some i =>
      obtain ⟨t, p', a', d', ht, hstored, hlive⟩ := ignoresStale (sameLive_advancePc h) i
      rw [takeStep_of_some hd, takeStep_of_some hd, resultOf_eq ht]
      exact ⟨p', a', d', resultOf_eq hstored, hlive⟩
  | tick => exact ⟨p, a, d, tickStep_withStored, sameLive_takeStep_of_no_command h nofun nofun⟩
  | start => exact ⟨p, a, d, startStep_withStored, sameLive_takeStep_of_no_command h nofun nofun⟩
  | handoff r => exact ⟨p, a, d, handoffStep_withStored r, sameLive_takeStep_of_no_command h nofun nofun⟩
  | reset => exact ⟨_, _, _, (withStored_self (applyReset s)).symm, fun _ _ _ => rfl, fun _ => rfl, fun _ _ _ => rfl⟩

end Live

end Sys2Proof.Machine

open Sys2Proof Sys2Proof.Machine

/-- Settles O52: states alike but for stale registers are one state with two contents stored in them, and a step keeps them so. -/
theorem staleRegistersAreUnobservable : Obligations.StaleRegistersAreUnobservable := by
  intro x s t h
  obtain ⟨ht, hlive⟩ := sameLive_of_hideStale_eq h
  obtain ⟨p, a, d, hstep, hlive'⟩ := takeStep_withStored hlive x
  rw [ht, hstep, hideStale_withStored hlive']

end

section
/-!
Proofs of the statements about the frame codec (40_frame_codec.md): `pack_le` and `unpack_le`, the frame, and the FrameCodec commands.
-/

namespace Sys2Proof.Machine

/-! ## `pack_le` and `unpack_le` (R100, R101) -/

/-- Fields read past the first `w` bits are those of the stream without them. -/
theorem fieldsFrom_add (t off w : Nat) (ws : List Nat) : fieldsFrom t (off + w) ws = fieldsFrom (t >>> w) off ws := by
  induction ws generalizing off with
  | nil => rfl
  | cons v ws ih =>
    rw [fieldsFrom, fieldsFrom, Nat.add_right_comm, ih, Nat.add_comm off w, Nat.shiftRight_add]

theorem fieldsFrom_streamFrom {pairs : List (Nat × Nat)} (h : Fits pairs) :
    fieldsFrom (streamFrom 0 pairs) 0 (pairs.map Prod.snd) = pairs.map Prod.fst := by
  induction pairs with
  | nil => rfl
  | cons p rest ih =>
    obtain ⟨v, w⟩ := p
    have hv : v < 2 ^ w := h.head
    have hrest : (2 ^ w * streamFrom 0 rest + v) >>> w = streamFrom 0 rest := by
      rw [Nat.shiftRight_eq_div_pow, Nat.mul_add_div (Nat.two_pow_pos w), Nat.div_eq_of_lt hv, Nat.add_zero]
    rw [List.map_cons, List.map_cons, streamFrom_cons, fieldsFrom, Nat.shiftRight_zero, Nat.mul_add_mod, Nat.mod_eq_of_lt hv,
      fieldsFrom_add, hrest, ih h.tail]

/-! ## The frame (R102 to R108, R124, R128) -/

theorem flagsByte_bit (k : Fin 2) (a : Bool) (b : Nat) (hb : b < 8) : (flagsByte k a).getLsbD b = (a && b == k.val) := by
  revert k a b
  decide

theorem frameCarries_encodeFrame (k : Fin 2) (c : ChannelState) : FrameCarries k (encodeFrame k c) c := by
  refine ⟨encodeFrame_header k c, encodeFrame_footer k c, fun b hb => ?_, fun i b hi hb => ?_⟩
  · rw [encodeFrame_flags, flagsByte_bit k c.arm b hb]
  · rw [encodeFrame_payload k c _ (by omega), payload_bit c.ch i b hi hb]

/-- What a successful decode of 25 bytes found (R124, R125). -/
theorem decodeFrame_decoded {k : Fin 2} {f : Frame} {c : ChannelState} {fl : Byte}
    (h : decodeFrame k f 25#8 = .decoded c fl) :
    f[0] = Config.header ∧ f[24] = Config.footer ∧ c.ch = unpackChannels (payloadBytes f) ∧ fl = f[23] := by
  unfold decodeFrame at h
  split_ifs at h with _ hheader hfooter
  cases h
  exact ⟨not_not.1 hheader, not_not.1 hfooter, rfl, rfl⟩

/-- The payload of the channels unpacked from a frame is the frame's payload: each of its 176 bits is a channel's. -/
theorem payload_unpackChannels (f : Frame) (j : Nat) (h : j < 22) :
    (payload (unpackChannels (payloadBytes f)))[j] = f[1 + j] := by
  refine BitVec.eq_of_getLsbD_eq fun b hb => ?_
  have hi : (8 * j + b) / 11 < 16 := by omega
  have hr : (8 * j + b) % 11 < 11 := Nat.mod_lt _ (by decide)
  have hpack := payload_bit (unpackChannels (payloadBytes f)) _ _ hi hr
  rw [unpackChannels_bit f _ _ hi hr] at hpack
  simpa only [Nat.div_add_mod, show (8 * j + b) / 8 = j by omega, show (8 * j + b) % 8 = b by omega] using hpack

/-- Two frames alike in their four parts are one frame (R52). -/
theorem frame_ext {f g : Frame} (hheader : f[0] = g[0]) (hpayload : ∀ (j : Nat) (h : j < 22), f[1 + j] = g[1 + j])
    (hflags : f[23] = g[23]) (hfooter : f[24] = g[24]) : f = g := by
  refine Vector.ext fun j hj => ?_
  obtain rfl | ⟨k, hk, rfl⟩ | rfl | rfl : j = 0 ∨ (∃ k, k < 22 ∧ j = 1 + k) ∨ j = 23 ∨ j = 24 := by
    by_cases h : 1 ≤ j ∧ j < 23
    · exact .inr (.inl ⟨j - 1, by omega, by omega⟩)
    · omega
  · exact hheader
  · exact hpayload k hk
  · exact hflags
  · exact hfooter

/-- A frame that decodes is the frame of what it decodes to exactly when its flags byte is one that `encode` writes (R128). -/
theorem encodeFrame_eq_iff {k : Fin 2} {f : Frame} {c : ChannelState} {fl : Byte}
    (h : decodeFrame k f 25#8 = .decoded c fl) : encodeFrame k c = f ↔ ∃ a, fl = flagsByte k a := by
  have harm : c.arm = fl.getLsbD k.val := arm_of_decodeFrame h
  obtain ⟨hheader, hfooter, hch, rfl⟩ := decodeFrame_decoded h
  constructor
  · rintro rfl
    exact ⟨c.arm, encodeFrame_flags k c⟩
  · rintro ⟨a, ha⟩
    have hflags : flagsByte k c.arm = f[23] := by rw [harm, ha, flagsByte_getLsbD]
    refine frame_ext ((encodeFrame_header k c).trans hheader.symm) (fun j hj => ?_)
      ((encodeFrame_flags k c).trans hflags) ((encodeFrame_footer k c).trans hfooter.symm)
    rw [encodeFrame_payload k c j hj, hch, payload_unpackChannels f j hj]

/-! ## The words and answers of the FrameCodec commands -/

theorem zext32_eq_ofNat {width : Nat} (v : BitVec width) : zext32 v = BitVec.ofNat 32 v.toNat :=
  (BitVec.ofNat_toNat 32 v).symm

/-- `DIN_PUSH` has a word for the arguments below 256 alone (R72, R122). -/
theorem decode_dinPush (arg : Arg) :
    decode (wordOf arg 0x0B#8 0#8 0#16) = if arg.toNat < 256 then some (.dinPush arg) else none := by
  have hsel : Mnemonic.dinPush.row.selects (wordOf arg 0x0B#8 0#8 0#16) = true ↔ arg.toNat < 256 := by
    rw [selects_iff_admits, opField_wordOf, rsvField_wordOf, argField_wordOf, idxField_wordOf]
    exact ⟨fun h => h.2.2.1, fun h => ⟨rfl, rfl, h, rfl⟩⟩
  have hop : opField (wordOf arg 0x0B#8 0#8 0#16) = Mnemonic.dinPush.row.op := opField_wordOf arg _ _ _
  rw [decode_of_op hop, idxField_wordOf, argField_wordOf]
  simp only [hsel, Mnemonic.command]

theorem decArm_append_decFlags (a : Bool) (fl : Byte) :
    (BitVec.ofBool a ++ fl).toNat = (if a = true then 256 else 0) + fl.toNat := by
  have h := fl.isLt
  rw [BitVec.toNat_append, ← Nat.shiftLeft_add_eq_or_of_lt h]
  cases a <;> rfl

/-- `DECODE` on a failing buffer takes the error path with the code and the FAULT bit of the violation (R126, R234). -/
theorem exec_decode_afterError {s : State} {e : DecodeError}
    (h : decodeFrame Config.armFlagBit s.din s.dinLen = .failed e) :
    exec .decode s = .next (afterError (decodeViolation s e).code (1#32 <<< ((decodeViolation s e).code.toNat - 1))
      (decodeViolation s e) s) :=
  (exec_decode_of_failed h).trans (fail_eq _ s)

end Sys2Proof.Machine

open Sys2Proof Sys2Proof.Machine

/-- Settles O34: the bytes carry the packed stream, and its fields are read off one after another. -/
theorem unpackInvertsPack : Obligations.UnpackInvertsPack := by
  intro pairs h
  rw [unpackLe, streamOfBytes_packLe h, fieldsFrom_streamFrom h]

/-- Settles O35: each bit of the output is the stream's, and the stream is below `2 ^ W`. -/
theorem packPlacesEveryBit : Obligations.PackPlacesEveryBit := by
  intro pairs h
  refine ⟨?_, fun k b hk hb => ?_, fun t ht => ?_⟩
  · rw [packLe_length, totalWidth_eq_sum, byteCount]
  · rw [packLe_bit h, streamFrom_testBit h k b hk hb]
  · rw [packLe_bit h]
    exact Nat.testBit_lt_two_pow ((streamFrom_lt h).trans_le (Nat.pow_le_pow_right (by decide) ht))

/-- Settles O36, part by part of the frame. -/
theorem encodedFrameCarriesEveryBit : Obligations.EncodedFrameCarriesEveryBit := frameCarries_encodeFrame

/-- Settles O37: a decode keeps the payload whole, so only the flags byte can be lost. -/
theorem frameRoundTrip : Obligations.FrameRoundTrip :=
  ⟨decodeFrame_encodeFrame, fun _ _ _ _ h => encodeFrame_eq_iff h⟩

/-- Settles O12: both reads are the indexed read of a frame. -/
theorem frameReadsReturnTheByte : Obligations.FrameReadsReturnTheByte := by
  refine ⟨fun idx => ⟨decode_encode (i := .foutGet idx) rfl, decode_encode (i := .txfGet idx) rfl⟩,
    fun idx s => ⟨fun h => ?_, fun h => ?_⟩⟩
  · rw [← zext32_eq_ofNat, ← zext32_eq_ofNat]
    exact ⟨readElement_of_lt s.fout h s, readElement_of_lt s.txbuf h s⟩
  · exact ⟨readElement_of_ge s.fout h s, readElement_of_ge s.txbuf h s⟩

/-- Settles O16: `FOUT` takes the frame of the snapshot, which carries every bit of it. -/
theorem encodeWritesTheFrameOfTheSnapshot : Obligations.EncodeWritesTheFrameOfTheSnapshot :=
  ⟨decode_encode (i := .encode) rfl, fun s => ⟨_, rfl, rfl, frameCarries_encodeFrame _ (hostSnapshot s)⟩⟩

/-- Settles O18, from the buffer and the count after a push. -/
theorem dinPushAppendsAndCounts : Obligations.DinPushAppendsAndCounts :=
  ⟨decode_dinPush, fun arg s =>
    ⟨_, rfl, rfl, pushedLen_toNat s.dinLen, fun j h => pushedBytes_getElem (argByte arg) s.dinLen s.din j h⟩⟩

/-- Settles O19: each check in turn, and the bits that a good frame carries. -/
theorem decodeChecksThenUnpacks : Obligations.DecodeChecksThenUnpacks := by
  refine ⟨decode_encode (i := .decode) rfl, fun s =>
    ⟨fun hlen => ?_, fun hlen h0 => ?_, fun hlen h0 h24 => ?_, fun hlen h0 h24 => ?_⟩⟩
  · exact exec_decode_afterError (decodeFrame_of_badLength _ _ hlen)
  · exact exec_decode_afterError (hlen ▸ decodeFrame_of_badHeader _ h0)
  · exact exec_decode_afterError (hlen ▸ decodeFrame_of_badFooter _ h0 h24)
  · have hgood := decodeFrame_of_good Config.armFlagBit h0 h24
    rw [← hlen] at hgood
    exact ⟨_, exec_decode_of_decoded hgood, rfl, fun i b hi hb => unpackChannels_bit s.din i b hi hb⟩

/-- Settles O17: only the count is written. -/
theorem dinClearEmptiesTheCount : Obligations.DinClearEmptiesTheCount :=
  ⟨decode_encode (i := .dinClear) rfl, fun s => complete_eq 0#32 { s with dinLen := 0#8 }⟩

/-- Settles O20: the flag stands above the eight bits of the flags byte. -/
theorem decFlagsGetReturnsArmAndFlags : Obligations.DecFlagsGetReturnsArmAndFlags := by
  refine ⟨decode_encode (i := .decFlagsGet) rfl, fun s => ?_⟩
  rw [← decArm_append_decFlags, ← zext32_eq_ofNat]
  rfl

end

section
/-!
Proofs of the statements about the ChannelState commands (41_channel_state.md): the reads of a channel, `CH_SET`, the reads of a flag,
and `SNAPSHOT`.
-/

namespace Sys2Proof.Machine

/-! ## What a read answers (R56) -/

theorem zext32_ofBool (b : Bool) : zext32 (BitVec.ofBool b) = if b = true then 1#32 else 0#32 := by
  cases b <;> rfl

/-- An indexed read of the sixteen channels: the channel below 16, IndexOutOfRange above 15 (R50, R56). -/
theorem readElement_channels (file : Channels) (idx : Byte) (s : State) :
    (∀ h : idx.toNat < 16, readElement file idx s = .next (afterOk (BitVec.ofNat 32 file[idx.toNat].toNat) s)) ∧
    (15 < idx.toNat → readElement file idx s = .next (afterError 0x01#8 0x01#32 (.indexOutOfRange idx) s)) :=
  ⟨fun h => zext32_eq_ofNat file[idx.toNat] ▸ readElement_of_lt file h s, fun h => readElement_of_ge file h s⟩

/-! ## One channel written (R143) -/

/-- A channel file after a write of a legal value: the channel named holds the value, every other is as it was. -/
theorem getElem_set_lowChan (file : Channels) {k : Nat} (hk : k < 16) {v : Int} (h0 : 0 ≤ v) (h1 : v ≤ 2047) (j : Nat) (h : j < 16) :
    if j = k then ((file.set k (lowChan v))[j].toNat : Int) = v else (file.set k (lowChan v))[j] = file[j] := by
  by_cases hj : j = k
  · subst hj
    rw [if_pos rfl, Vector.getElem_set_self, lowChan_toNat h0 h1]
  · rw [if_neg hj, Vector.getElem_set_ne hk h (Ne.symm hj)]

end Sys2Proof.Machine

open Sys2Proof Sys2Proof.Machine

/-- Settles O11: the three reads are one indexed read, of `CUR`, of `SNAP` and of `DEC`. -/
theorem channelReadsReturnTheChannel : Obligations.ChannelReadsReturnTheChannel := by
  refine ⟨fun idx => ⟨decode_encode (i := .chGet idx) rfl, decode_encode (i := .snapGet idx) rfl,
    decode_encode (i := .decGet idx) rfl⟩, fun idx s => ?_⟩
  obtain ⟨hcur, hcur'⟩ := readElement_channels s.cur idx s
  obtain ⟨hsnap, hsnap'⟩ := readElement_channels s.snap idx s
  obtain ⟨hdec, hdec'⟩ := readElement_channels s.dec idx s
  exact ⟨fun h => ⟨hcur h, hsnap h, hdec h⟩, fun h => ⟨hcur' h, hsnap' h, hdec' h⟩⟩

/-- Settles O13, by the branches of `CH_SET`: a bad index, a bad value, a legal value. -/
theorem chSetWritesOrRejects : Obligations.ChSetWritesOrRejects := by
  refine ⟨fun idx arg => decode_encode (i := .chSet idx arg) rfl, fun idx arg s =>
    ⟨fun hidx => exec_chSet_of_badIndex hidx arg s, fun hidx hv => ?_, fun hidx h0 h1 => ?_⟩⟩
  · rw [← sval_eq_toInt] at hv ⊢
    exact exec_chSet_of_badValue (Nat.lt_succ_of_le hidx) ((outOfChannelRange_iff _).2 hv) s
  · have hk : idx.toNat < 16 := Nat.lt_succ_of_le hidx
    rw [← sval_eq_toInt] at h0 h1 ⊢
    have hv : ¬outOfChannelRange (sval arg) = true := by
      rw [outOfChannelRange_iff]
      omega
    exact ⟨_, exec_chSet_of_legal hk hv s, rfl, getElem_set_lowChan s.cur hk h0 h1⟩

/-- Settles O14: a flag, zero-extended, is 1 or 0. -/
theorem armReadsReturnTheFlag : Obligations.ArmReadsReturnTheFlag := by
  refine ⟨decode_encode (i := .armGet) rfl, decode_encode (i := .snapArmGet) rfl, fun s => ?_⟩
  rw [← zext32_ofBool, ← zext32_ofBool]
  exact ⟨complete_eq _ s, complete_eq _ s⟩

/-- Settles O15: `CUR` and `ARM` are copied by one update. -/
theorem snapshotCopiesTheWholeChannelState : Obligations.SnapshotCopiesTheWholeChannelState :=
  ⟨decode_encode (i := .snapshot) rfl, fun s => complete_eq 0#32 { s with snap := s.cur, snapArm := s.arm }⟩

end

section
/-!
Proofs of the statements about the CommandIngestor commands (42_command_ingest.md): the four commands of a message, and a message that
fails to parse.
-/

namespace Sys2Proof.Machine

/-! ## A command out of sequence (R168 to R170, R234) -/

theorem fail_sequenceError (m : Mnemonic) (s : State) :
    fail (.sequenceError m) s = .next (afterError 0x06#8 0x20#32 (.sequenceError m) s) := fail_eq _ s

/-! ## One field staged (R166, R169, R173) -/

theorem lowChan_clamp_of_outside {v : Int} (h : ¬(0 ≤ v ∧ v ≤ 2047)) :
    lowChan (clamp v) = if v < 0 then 0#11 else 2047#11 := by
  by_cases h0 : v < 0
  · rw [if_pos h0, lowChan_clamp_of_neg h0]
  · rw [if_neg h0, lowChan_clamp_of_gt (by omega)]

/-- A channel field: the clamped value staged, and both reports of a clamp exactly for a value outside [0, 2047]. -/
theorem stageField_eq (k : Byte) (i : Fin 16) (v : Int) (s : State) :
    stageField k i v s = .next (afterOk (if 0 ≤ v ∧ v ≤ 2047 then 0#32 else 1#32)
      { stageChannel i (lowChan (clamp v)) s with
        events := if 0 ≤ v ∧ v ≤ 2047 then s.events
          else s.events ++ [.clamp k v (if v < 0 then 0#11 else 2047#11)] }) := by
  rw [stageField]
  by_cases h : 0 ≤ v ∧ v ≤ 2047
  · have hkept : clamp v = v := (clamp_eq_self_iff v).2 h
    rw [if_neg (not_not.2 hkept), if_pos h, if_pos h]
    rfl
  · have hclamped : clamp v ≠ v := mt (clamp_eq_self_iff v).1 h
    rw [if_pos hclamped, if_neg h, if_neg h, lowChan_clamp_of_outside h]
    rfl

/-! ## A message that fails to parse (R165, R171, R174) -/

/-- HOST's step for a command that is no `MSG_COMMIT` and no `CH_SET` writes neither `CUR` nor `ARM`. -/
theorem not_writesChannelState_issue {i : Instr} (hwf : i.wellFormed = true) (hcommit : i ≠ .msgCommit)
    (hset : ∀ k a, i ≠ .chSet k a) : ¬writesChannelState (issue i) := by
  have only : ∀ j, issues (issue i) j → i = j := by
    rintro j ⟨w, hw, hj⟩
    cases hw
    exact Option.some.inj ((decode_encode hwf).symm.trans hj)
  rintro (hreset | hissued | ⟨k, a, hissued⟩)
  · cases hreset
  · exact hcommit (only _ hissued)
  · exact hset k a (only _ hissued)

theorem published_msgBegin (s : State) : published (takeStep (issue .msgBegin) s) = published s :=
  takeStep_published (not_writesChannelState_issue (i := .msgBegin) rfl nofun nofun) s

theorem published_runOf_fields (fields : List (Byte × Arg)) (s : State) :
    published (runOf ((fields.map fun f => Instr.msgField f.1 f.2).map issue) s) = published s := by
  refine runOf_published (fun x hx => ?_) s
  rw [List.map_map] at hx
  obtain ⟨f, -, rfl⟩ := List.mem_map.1 hx
  exact not_writesChannelState_issue rfl nofun nofun

theorem takeStep_msgAbort (s : State) :
    takeStep (issue .msgAbort) s = respond okCode 0#32 (emit .parseFailure (clearStaging false (advancePc s))) :=
  (takeStep_issue (i := .msgAbort) rfl s).trans (resultOf_eq rfl)

end Sys2Proof.Machine

open Sys2Proof Sys2Proof.Machine

/-- Settles O22, by the target of the field code. -/
theorem msgFieldStagesOneField : Obligations.MsgFieldStagesOneField := by
  refine ⟨fun idx arg => decode_encode (i := .msgField idx arg) rfl, fun idx arg s =>
    ⟨fun hclosed => ?_, fun hopen hidx => ?_, fun hopen hidx => ?_, fun hopen hidx => exec_msgField_of_unknown hopen hidx arg⟩⟩
  · exact (exec_msgField_of_closed (ne_true_of_eq_false hclosed) idx arg).trans (fail_sequenceError _ s)
  · have hk : idx.toNat < 16 := Nat.lt_succ_of_le hidx
    have hexec := exec_msgField_of_channel hopen hk arg
    rw [sval_eq_toInt, stageField_eq] at hexec
    obtain ⟨h0, h1⟩ := clamp_bounds arg.toInt
    exact ⟨_, hexec, rfl, getElem_set_lowChan s.pval hk h0 h1, stagedMask_getLsbD s.pmask ⟨idx.toNat, hk⟩⟩
  · obtain rfl : idx = 0x10#8 := BitVec.eq_of_toNat_eq hidx
    rw [exec_msgField_of_armed hopen, sval_eq_toInt, bne_eq_decide_ne]
    rfl

/-- Settles O23: a commit merges what is staged into the ChannelState and closes the message. -/
theorem msgCommitAppliesEveryStagedField : Obligations.MsgCommitAppliesEveryStagedField := by
  refine ⟨decode_encode (i := .msgCommit) rfl, fun s => ⟨fun hclosed => ?_, fun hopen => ?_⟩⟩
  · exact (exec_msgCommit_of_closed (ne_true_of_eq_false hclosed)).trans (fail_sequenceError _ s)
  · exact ⟨_, exec_msgCommit_of_open hopen, rfl, mergeStaged_getElem s.pmask s.pval s.cur⟩

/-- Settles O41: no command of the message writes the ChannelState, and `MSG_ABORT` empties the staging. -/
theorem abortedMessageLeavesChannelState : Obligations.AbortedMessageLeavesChannelState := by
  intro s fields
  have hpublished := (published_runOf_fields fields (takeStep (issue .msgBegin) s)).trans (published_msgBegin s)
  exact ⟨_, (runOf_message fields .msgAbort s).trans (takeStep_msgAbort _), congrArg ChannelState.ch hpublished,
    congrArg ChannelState.arm hpublished, rfl, rfl, rfl, List.mem_append_right _ List.mem_cons_self⟩

/-- Settles O21, by whether a message is open. -/
theorem msgBeginOpensOrFails : Obligations.MsgBeginOpensOrFails := by
  refine ⟨decode_encode (i := .msgBegin) rfl, fun s => ⟨fun hopen => ?_, fun hclosed => ?_⟩⟩
  · exact (exec_msgBegin_of_open hopen).trans (fail_sequenceError _ s)
  · exact (exec_msgBegin_of_closed (ne_true_of_eq_false hclosed)).trans (complete_eq 0#32 (clearStaging true s))

/-- Settles O24: `MSG_ABORT` has one outcome, whether or not a message is open. -/
theorem msgAbortDiscardsTheMessage : Obligations.MsgAbortDiscardsTheMessage :=
  ⟨decode_encode (i := .msgAbort) rfl, fun s => complete_eq 0#32 (emit .parseFailure (clearStaging false s))⟩

end

section
/-!
Proofs of the statements about the TransmitScheduler (43_transmit_scheduler.md): the tick, start and handoff steps, `TX_ENABLE`, ticks
served in time, where the frames on the wire come from, and that a pending tick is served.
-/

namespace Sys2Proof.Machine

/-! ## When the engine's steps are enabled (R194, R196) -/

theorem startEnabled_iff {s : State} :
    startEnabled s = true ↔ s.txState = .idle ∧ s.tickPending = true ∧ s.txEn = true := by
  rw [startEnabled, Bool.and_eq_true, Bool.and_eq_true, beq_iff_eq, and_assoc]

theorem handoffEnabled_iff {s : State} : handoffEnabled s = true ↔ s.txState = .transmitting := beq_iff_eq

theorem txState_ne_idle_iff {s : State} : s.txState ≠ .idle ↔ s.txState = .transmitting := by
  cases s.txState <;> simp

theorem takeStep_tick_of_notPending {s : State} (hen : s.txEn = true) (hp : s.tickPending = false) :
    takeStep .tick s = { s with tickPending := true } := tickStep_of_notPending hen (ne_true_of_eq_false hp)

theorem takeStep_start_of_enabled {s : State} (hi : s.txState = .idle) (hp : s.tickPending = true) (hen : s.txEn = true) :
    takeStep .start s = { s with
      tickPending := false
      txbuf := encodeFrame Config.armFlagBit (published s)
      txState := .transmitting } := startStep_of_enabled (startEnabled_iff.2 ⟨hi, hp, hen⟩)

theorem takeStep_handoff_of_transmitting {s : State} (h : s.txState = .transmitting) (r : Answer) :
    takeStep (.handoff r) s = { deliver r s with txState := .idle } := handoffStep_of_enabled (handoffEnabled_iff.2 h)

/-- `TX_ENABLE` has a word for the arguments 0 and 1 alone (R72, R200). -/
theorem decode_txEnable (arg : Arg) :
    decode (wordOf arg 0x18#8 0#8 0#16) = if arg.toNat < 2 then some (.txEnable arg) else none := by
  have hsel : Mnemonic.txEnable.row.selects (wordOf arg 0x18#8 0#8 0#16) = true ↔ arg.toNat < 2 := by
    rw [selects_iff_admits, opField_wordOf, rsvField_wordOf, argField_wordOf, idxField_wordOf]
    exact ⟨fun h => h.2.2.1, fun h => ⟨rfl, rfl, h, rfl⟩⟩
  have hop : opField (wordOf arg 0x18#8 0#8 0#16) = Mnemonic.txEnable.row.op := opField_wordOf arg _ _ _
  rw [decode_of_op hop, idxField_wordOf, argField_wordOf]
  simp only [hsel, Mnemonic.command]

/-! ## Ticks served in time (R204, R275) -/

/-- From `s` to `u` the transport answered Ok `frames` times and Fail `failures` times, and no tick overran; at `u` transmission is
enabled, `TICK_PENDING` is `pending` and `TX_STATE` is `state`. -/
structure Served (frames failures : Nat) (pending : Bool) (state : TxState) (s u : State) : Prop where
  txEn : u.txEn = true
  tickPending : u.tickPending = pending
  txState : u.txState = state
  wire : u.wire.length = s.wire.length + frames
  failed : u.events.count .transportFailure = s.events.count .transportFailure + failures
  overruns : u.events.count .tickOverrun = s.events.count .tickOverrun
  overrunBit : u.faultReg.getLsbD 7 = s.faultReg.getLsbD 7

theorem Served.refl {s : State} (h : s.txEn = true) : Served 0 0 s.tickPending s.txState s s := ⟨h, rfl, rfl, rfl, rfl, rfl, rfl⟩

section Served

variable {frames failures : Nat} {pending : Bool} {state : TxState} {s u t : State}

/-- A step that keeps the elements that `Served` speaks of keeps it. -/
theorem Served.of_kept (h : Served frames failures pending state s u) (hen : t.txEn = u.txEn) (hp : t.tickPending = u.tickPending)
    (hst : t.txState = u.txState) (hw : t.wire = u.wire) (hev : t.events = u.events) (hf : t.faultReg = u.faultReg) :
    Served frames failures pending state s t where
  txEn := hen.trans h.txEn
  tickPending := hp.trans h.tickPending
  txState := hst.trans h.txState
  wire := hw ▸ h.wire
  failed := hev ▸ h.failed
  overruns := hev ▸ h.overruns
  overrunBit := hf ▸ h.overrunBit

theorem Served.emit (h : Served frames failures pending state s u) {e : Event} (hf : e ≠ .transportFailure) (ho : e ≠ .tickOverrun) :
    Served frames failures pending state s (emit e u) :=
  { h with
    failed := by rw [emit_events, List.count_append, List.count_singleton, if_neg (by simpa using hf)]; exact h.failed
    overruns := by rw [emit_events, List.count_append, List.count_singleton, if_neg (by simpa using ho)]; exact h.overruns }

/-- The error path sets one of the FAULT bits 0 to 6 and reports its violation (R234). -/
theorem Served.raise (h : Served frames failures pending state s u) (e : Contract) :
    Served frames failures pending state s (raise e u) := by
  have hbit : (setFaultBit (e.code.toNat - 1) u.faultReg).getLsbD 7 = u.faultReg.getLsbD 7 := by
    have hcode := code_bounds e
    have hne : 7 ≠ e.code.toNat - 1 := by omega
    rw [setFaultBit_getLsbD _ _ _ (by decide), beq_false_of_ne hne, Bool.or_false]
  exact { h.emit (e := .contract e) nofun nofun with overrunBit := hbit.trans h.overrunBit }

/-- No command but `TX_ENABLE 0` touches the engine, its outputs or its events. -/
theorem Served.effect (h : Served frames failures pending state s u) {i : Instr} (he : Effect u i t)
    (hi : ∀ a, i = .txEnable a → a.getLsbD 0 = true) : Served frames failures pending state s t := by
  cases he with
  | error _ e => exact h.raise e
  | clamps k a => apply (h.emit (e := .clamp k (sval a) (lowChan (clamp (sval a)))) nofun nofun).of_kept <;> simp
  | msgAbort => apply (h.emit (e := .parseFailure) nofun nofun).of_kept <;> simp
  | txEnable a =>
    have hflag : argFlag a = true := hi a rfl
    exact { h with
      txEn := hflag
      tickPending := (congrArg (· && u.tickPending) hflag).trans h.tickPending }
  | _ => apply h.of_kept <;> simp

theorem Served.took_command (h : Served frames failures pending state s u) {w : CmdWord} (ht : Took u (.command w) t)
    (hw : keepsEnabled w) : Served frames failures pending state s t := by
  have hadvanced : Served frames failures pending state s (advancePc u) := { h with }
  cases ht with
  | illegal => exact hadvanced.raise _
  | command _ i hd t he => exact hadvanced.effect he fun a hi => hw a (hi ▸ hd)

theorem Served.commands (h : Served frames failures pending state s u) {ws : List CmdWord} (hws : ∀ w ∈ ws, keepsEnabled w) :
    Served frames failures pending state s (runOf (ws.map .command) u) := by
  refine runOf_keeps (fun x hx v hv => ?_) h
  obtain ⟨w, hw, rfl⟩ := List.mem_map.1 hx
  exact hv.took_command (takeStep_took _ v) (hws w hw)

theorem Served.tick (h : Served frames failures false .idle s u) : Served frames failures true .idle s (takeStep .tick u) := by
  rw [takeStep_tick_of_notPending h.txEn h.tickPending]
  exact { h with tickPending := rfl }

theorem Served.start (h : Served frames failures true .idle s u) :
    Served frames failures false .transmitting s (takeStep .start u) := by
  rw [takeStep_start_of_enabled h.txState h.tickPending h.txEn]
  exact { h with tickPending := rfl, txState := rfl }

theorem Served.handoff (h : Served frames failures false .transmitting s u) (r : Answer) :
    Served (frames + if r == .ok then 1 else 0) (failures + if r == .fail then 1 else 0) false .idle s
      (takeStep (.handoff r) u) := by
  rw [takeStep_handoff_of_transmitting h.txState]
  cases r with
  | ok => exact { h with txState := rfl, wire := by rw [deliver, List.length_append, h.wire]; rfl }
  | fail =>
    exact { h with
      txState := rfl
      failed := by rw [deliver, emit_events, List.count_append, h.failed]; rfl
      overruns := by rw [deliver, emit_events, List.count_append, h.overruns]; rfl }

/-- One tick, served before the next: one handoff, and the engine ready again. -/
theorem Served.round (h : Served frames failures false .idle s u) {r : ServedTick} (hr : r.staysEnabled) :
    Served (frames + if r.answer == .ok then 1 else 0) (failures + if r.answer == .fail then 1 else 0) false .idle s
      (runOf r.steps u) := by
  obtain ⟨hstart, hhandoff, hafter⟩ := hr
  rw [ServedTick.steps, List.cons_append, List.cons_append, runOf_cons, runOf_append, runOf_append, runOf_cons, runOf_cons]
  exact (((h.tick.commands hstart).start.commands hhandoff).handoff r.answer).commands hafter

theorem Served.rounds (rounds : List ServedTick) (h : Served frames failures false .idle s u)
    (hr : ∀ r ∈ rounds, r.staysEnabled) :
    Served (frames + rounds.countP fun r => r.answer == .ok) (failures + rounds.countP fun r => r.answer == .fail) false .idle s
      (runOf (rounds.flatMap ServedTick.steps) u) := by
  induction rounds generalizing frames failures u with
  | nil => exact h
  | cons r rest ih =>
    have hround := ih (h.round (hr r List.mem_cons_self)) fun q hq => hr q (List.mem_cons_of_mem _ hq)
    rw [List.flatMap_cons, runOf_append, List.countP_cons, List.countP_cons]
    convert hround using 1 <;> omega

end Served

/-- A tick served Ok with no command between puts the frame of the ChannelState on the wire and writes nothing else but `TXBUF`
(R190). -/
theorem runOf_servedOk {s : State} (hen : s.txEn = true) (hp : s.tickPending = false) (hi : s.txState = .idle) :
    runOf [.tick, .start, .handoff .ok] s = { s with
      tickPending := false
      txState := .idle
      txbuf := encodeFrame Config.armFlagBit (published s)
      wire := s.wire ++ [encodeFrame Config.armFlagBit (published s)] } := by
  have hstart := takeStep_start_of_enabled (s := { s with tickPending := true }) hi rfl hen
  rw [runOf_cons, runOf_cons, takeStep_tick_of_notPending hen hp, hstart]
  rfl

/-! ## Where the frames on the wire come from (R194 to R196) -/

/-- `f` is the frame that a handoff in progress at `s` carries, or the frame of what some state of the run published. -/
def LiveFrame (xs : List Input) (s : State) (f : Frame) : Prop :=
  (s.txState = .transmitting ∧ f = s.txbuf) ∨ ∃ t ∈ statesAlong xs s, f = encodeFrame Config.armFlagBit (published t)

/-- A handoff in progress after a step was in progress before with the same frame, or the step was the start that encoded it. -/
theorem Took.txbuf_cases {s t : State} {x : Input} (h : Took s x t) (ht : t.txState = .transmitting) :
    (s.txState = .transmitting ∧ t.txbuf = s.txbuf) ∨ t.txbuf = encodeFrame Config.armFlagBit (published s) := by
  cases h with
  | command w i hd t he => exact .inl ⟨he.engine_eq.1.symm.trans ht, he.engine_eq.2⟩
  | started => exact .inr rfl
  | delivered | failed | reset => cases ht
  | _ => exact .inl ⟨by simpa using ht, by simp⟩

theorem LiveFrame.cons {x : Input} {xs : List Input} {s : State} {f : Frame} (h : LiveFrame xs (takeStep x s) f) :
    LiveFrame (x :: xs) s f := by
  rcases h with ⟨ht, rfl⟩ | ⟨t, ht, hf⟩
  · rcases (takeStep_took x s).txbuf_cases ht with hs | hpub
    · exact .inl hs
    · exact .inr ⟨s, List.mem_cons_self, hpub⟩
  · exact .inr ⟨t, List.mem_cons_of_mem _ ht, hf⟩

/-- Every frame a run adds to the wire is live in it. -/
theorem wire_runOf (xs : List Input) (s : State) :
    ∃ frames, (runOf xs s).wire = s.wire ++ frames ∧ ∀ f ∈ frames, LiveFrame xs s f := by
  induction xs generalizing s with
  | nil => exact ⟨[], (List.append_nil _).symm, nofun⟩
  | cons x xs ih =>
    obtain ⟨frames, hwire, hlive⟩ := ih (takeStep x s)
    rw [runOf_cons, hwire]
    rcases (takeStep_took x s).wire_cases with hkept | ⟨-, hs, hadded⟩
    · exact ⟨frames, congrArg (· ++ frames) hkept, fun f hf => (hlive f hf).cons⟩
    · refine ⟨s.txbuf :: frames, by rw [hadded, List.append_assoc, List.singleton_append], fun f hf => ?_⟩
      rcases List.mem_cons.1 hf with rfl | hf
      · exact .inl ⟨hs, rfl⟩
      · exact (hlive f hf).cons

/-! ## A tick that waits (R205) -/

/-- A tick is pending and transmission is enabled. -/
def TickWaits (s : State) : Prop := s.txEn = true ∧ s.tickPending = true

/-- Until an enabled start serves it, a waiting tick waits on, and an Idle engine stays Idle. -/
theorem Took.tickWaits {s t : State} {x : Input} (h : Took s x t) (hs : TickWaits s) (hreset : x ≠ .reset)
    (hkeep : ∀ a, issues x (.txEnable a) → a.getLsbD 0 = true) (hstart : x = .start → ¬startEnabled s = true) :
    TickWaits t ∧ (s.txState = .idle → t.txState = .idle) := by
  obtain ⟨hen, hp⟩ := hs
  have command : ∀ {w}, x = .command w → TickWaits t ∧ (s.txState = .idle → t.txState = .idle) := by
    rintro w rfl
    have hserved := (Served.refl hen).took_command h fun a hd => hkeep a ⟨w, rfl, hd⟩
    exact ⟨⟨hserved.txEn, hserved.tickPending.trans hp⟩, fun hi => hserved.txState.trans hi⟩
  cases h with
  | illegal | command => exact command rfl
  | tickIgnored | startPassed | handoffPassed | overrun => exact ⟨⟨hen, hp⟩, id⟩
  | latched => exact ⟨⟨hen, rfl⟩, id⟩
  | started he => exact absurd he (hstart rfl)
  | delivered | failed => exact ⟨⟨hen, hp⟩, fun _ => rfl⟩
  | reset => exact absurd rfl hreset

end Sys2Proof.Machine

open Sys2Proof Sys2Proof.Machine

/-- Settles O27: `TXBUF` takes the frame of the ChannelState, which carries every bit of it. -/
theorem startEncodesTheLiveChannelState : Obligations.StartEncodesTheLiveChannelState := by
  intro s rest hin hidle hp hen
  refine ⟨_, step_cons hin, ?_⟩
  rw [takeStep_start_of_enabled hidle hp hen]
  exact ⟨rfl, frameCarries_encodeFrame _ (published s)⟩

/-- Settles O55: an Idle engine has no frame of an earlier start left to hand off. -/
theorem wireFramesComeFromLiveChannelState : Obligations.WireFramesComeFromLiveChannelState := by
  intro s xs hidle
  obtain ⟨frames, hwire, hlive⟩ := wire_runOf xs s
  refine ⟨frames, hwire, fun f hf => (hlive f hf).resolve_left ?_⟩
  rintro ⟨hsending, -⟩
  exact absurd (hidle.symm.trans hsending) nofun

/-- Settles O56, by induction on the rounds: each leaves the engine ready for the next tick. -/
theorem servedTicksGiveOneHandoffEach : Obligations.ServedTicksGiveOneHandoffEach := by
  intro s rounds hen hp hidle hrounds
  have hready : Served 0 0 false .idle s s := ⟨hen, hp, hidle, rfl, rfl, rfl, rfl⟩
  obtain ⟨hen', hp', hidle', hwire, hfailed, hoverruns, hbit⟩ := hready.rounds rounds hrounds
  rw [Nat.zero_add] at hwire hfailed
  exact ⟨_, rfl, hen', hp', hidle', hwire, hfailed, hoverruns, hbit⟩

/-- Settles O57, by induction on the ticks: a round adds the frame and keeps what is published. -/
theorem unchangedStateIsSentEveryTick : Obligations.UnchangedStateIsSentEveryTick := by
  intro s n hen hp hidle
  induction n generalizing s with
  | zero => exact (List.append_nil _).symm
  | succ n ih =>
    rw [List.replicate_succ, List.flatten_cons, runOf_append, runOf_servedOk hen hp hidle, ih]
    · exact List.append_assoc _ [_] _
    · exact hen
    · rfl
    · rfl

/-- Settles O60: unserved, the tick would wait for ever. If TXE is ever Idle it stays so, and a start is due; if never, a handoff is due,
which leaves it Idle. -/
theorem pendingTickIsEventuallyServed : Obligations.PendingTickIsEventuallyServed := by
  rintro sched s n ⟨hfairStart, hfairHandoff⟩ hen hp hreset hkeep
  by_contra hunserved
  have hno : ∀ m, n ≤ m → sched m = .start → ¬startEnabled (stateAt sched s m) = true :=
    fun m hm hs he => hunserved ⟨m, hm, hs, he⟩
  have hstep := fun m hm h =>
    (takeStep_took (sched m) (stateAt sched s m)).tickWaits h (hreset m hm) (fun a => hkeep m a hm) (hno m hm)
  have hwaits : ∀ m, n ≤ m → TickWaits (stateAt sched s m) :=
    Nat.le_induction ⟨hen, hp⟩ fun m hm h => (hstep m hm h).1
  by_cases hidle : ∃ m, n ≤ m ∧ (stateAt sched s m).txState = .idle
  · obtain ⟨m, hm, hi⟩ := hidle
    have hstays : ∀ k, m ≤ k → (stateAt sched s k).txState = .idle :=
      Nat.le_induction hi fun k hk h => (hstep k (hm.trans hk) (hwaits k (hm.trans hk))).2 h
    have henabled : ∀ k, m ≤ k → startEnabled (stateAt sched s k) = true := fun k hk =>
      startEnabled_iff.2 ⟨hstays k hk, (hwaits k (hm.trans hk)).2, (hwaits k (hm.trans hk)).1⟩
    obtain ⟨k, hk, hs⟩ := hfairStart m henabled
    exact hno k (hm.trans hk) hs (henabled k hk)
  · have hsending : ∀ m, n ≤ m → handoffEnabled (stateAt sched s m) = true := fun m hm =>
      handoffEnabled_iff.2 (txState_ne_idle_iff.1 fun hi => hidle ⟨m, hm, hi⟩)
    obtain ⟨m, hm, r, hr⟩ := hfairHandoff n hsending
    have hafter : (takeStep (sched m) (stateAt sched s m)).txState = .idle := hr ▸ txState_handoff r _
    exact hidle ⟨m + 1, Nat.le_succ_of_le hm, hafter⟩

/-- Settles O25: with the enable bit the pending tick is kept, without it dropped. -/
theorem txEnableSetsTheEnable : Obligations.TxEnableSetsTheEnable := by
  refine ⟨decode_txEnable, fun arg s => ?_⟩
  rw [exec, execTxEnable, complete_eq, argFlag_eq, ← Bool.cond_eq_ite, Bool.cond_false_right]

/-- Settles O26, by the branches of the tick step. -/
theorem tickLatchesOrOverruns : Obligations.TickLatchesOrOverruns := by
  intro s rest hin
  rw [step_cons hin]
  show Host.Outcome.next (withInputs rest (tickStep s)) = _
  by_cases hen : s.txEn = false
  · rw [tickStep_of_disabled (ne_true_of_eq_false hen), if_pos hen]
    rfl
  · rw [if_neg hen]
    have hen : s.txEn = true := eq_true_of_ne_false hen
    by_cases hp : s.tickPending = true
    · rw [tickStep_of_pending hen hp, if_pos hp]
      rfl
    · rw [tickStep_of_notPending hen hp, if_neg hp]
      rfl

/-- Settles O28, by the transport's answer. -/
theorem handoffDeliversOrReports : Obligations.HandoffDeliversOrReports := by
  intro s r rest hin hsending
  rw [step_cons hin, takeStep_handoff_of_transmitting hsending]
  cases r <;> rfl

/-- Settles O29: neither step does anything while it is not enabled. -/
theorem disabledEngineStepChangesNothing : Obligations.DisabledEngineStepChangesNothing := by
  refine fun s rest => ⟨fun hin hdisabled => ?_, fun r hin hidle => ?_⟩
  · have hstep : takeStep .start s = s := startStep_of_disabled (mt startEnabled_iff.1 hdisabled)
    rw [step_cons hin, hstep]
    rfl
  · have hstep : takeStep (.handoff r) s = s :=
      handoffStep_of_disabled (mt handoffEnabled_iff.1 fun hs => absurd (hidle.symm.trans hs) nofun)
    rw [step_cons hin, hstep]
    rfl

end

section
/-!
Proofs of the statements about the control and status commands (44_control_status.md): the STATUS word field by field, and the two
commands that only answer.
-/

namespace Sys2Proof.Machine

/-! ## The STATUS word (R34): a bit put below a word, and what stands above it -/

theorem extractLsb'_succ_concat {n : Nat} (x : BitVec n) (b : Bool) (start len : Nat) :
    (x.concat b).extractLsb' (start + 1) len = x.extractLsb' start len :=
  BitVec.extractLsb'_append_eq_of_le (Nat.le_add_left 1 start)

theorem txState_bit_eq (t : TxState) : t.bit = (t == .transmitting) := by
  cases t <;> rfl

/-- The flags beside `TX_STATE`, whose bit is `statusWord_txState`'s. -/
theorem statusWord_flags (s : State) :
    (statusWord s).getLsbD 0 = s.txEn ∧ (statusWord s).getLsbD 2 = s.tickPending ∧
    (statusWord s).getLsbD 3 = s.msgOpen ∧ (statusWord s).getLsbD 4 = s.arm ∧
    (statusWord s).getLsbD 5 = s.snapArm ∧ (statusWord s).getLsbD 6 = s.decArm ∧
    (statusWord s).getLsbD 7 = s.parmValid := by
  simp only [statusWord, BitVec.append_ofBool, BitVec.getLsbD_concat_zero, BitVec.getLsbD_concat_succ, and_self]

/-- Above the eight flags stand `PMASK` and `DIN_LEN`. -/
theorem statusWord_extractLsb'_add_eight (s : State) (start len : Nat) :
    (statusWord s).extractLsb' (start + 8) len = (s.pmask ++ s.dinLen).extractLsb' start len := by
  simp only [statusWord, BitVec.append_ofBool, extractLsb'_succ_concat]

theorem statusWord_dinLen (s : State) : (statusWord s).extractLsb' 8 8 = s.dinLen :=
  (statusWord_extractLsb'_add_eight s 0 8).trans BitVec.extractLsb'_append_eq_right

theorem statusWord_pmask (s : State) : (statusWord s).extractLsb' 16 16 = s.pmask :=
  (statusWord_extractLsb'_add_eight s 8 16).trans BitVec.extractLsb'_append_eq_left

end Sys2Proof.Machine

open Sys2Proof Sys2Proof.Machine

/-- Settles O31: the answer is the STATUS word, whose flags and two upper fields are the layout's. -/
theorem statusGetReturnsTheLayout : Obligations.StatusGetReturnsTheLayout := by
  refine ⟨decode_encode (i := .statusGet) rfl, fun s => ⟨statusWord s, complete_eq (statusWord s) s, ?_⟩⟩
  obtain ⟨htxEn, htick, hopen, harm, hsnapArm, hdecArm, hparmValid⟩ := statusWord_flags s
  exact ⟨htxEn, (statusWord_txState s).trans (txState_bit_eq s.txState), htick, hopen, harm, hsnapArm, hdecArm, hparmValid,
    statusWord_dinLen s, statusWord_pmask s⟩

/-- Settles O30: each of the two commands is a completion, with 0 and with `FAULT` for its data. -/
theorem nopAndFaultGetOnlyRespond : Obligations.NopAndFaultGetOnlyRespond :=
  ⟨decode_encode (i := .nop) rfl, decode_encode (i := .faultGet) rfl,
    fun s => ⟨complete_eq 0#32 s, complete_eq s.faultReg s⟩⟩

end

section
/-!
Proofs of the statements about exceptions (60_exceptions.md): a step on a command word, the error path's precision, and that no error
stops DDC.
-/

namespace Sys2Proof.Machine

/-- Every effect but the error path answers OK (R233). -/
theorem Effect.eq_raise_of_respCode_ne_ok {s t : State} {i : Instr} (h : Effect s i t) (hcode : t.respCode ≠ okCode) :
    ∃ e, t = raise e s := by
  cases h
  case error e => exact ⟨e, rfl⟩
  all_goals exact absurd (respond_respCode okCode _ _) hcode

theorem hostStep_eq_raise_of_respCode_ne_ok {w : CmdWord} {s t : State} (h : hostStep w s = .next t)
    (hcode : t.respCode ≠ okCode) : ∃ e, t = raise e (advancePc s) := by
  cases hd : decode w with
  | none => exact ⟨.illegalCommand w, Host.Outcome.next.inj (h.symm.trans (hostStep_of_illegal hd s))⟩
  | some i =>
    have ht : resultOf i (advancePc s) = t := Host.Outcome.next.inj ((hostStep_of_some hd s).symm.trans h)
    exact (ht ▸ exec_effect i (advancePc s)).eq_raise_of_respCode_ne_ok hcode

end Sys2Proof.Machine

open Sys2Proof Sys2Proof.Machine

/-- Settles O48: the failing step is a `raise`, which is R234's error state. -/
theorem errorsArePrecise : Obligations.ErrorsArePrecise := by
  intro w s t h hcode
  obtain ⟨e, rfl⟩ := hostStep_eq_raise_of_respCode_ne_ok h hcode
  exact ⟨e, rfl⟩

/-- Settles O8: with no step to come nothing changes, and every agent's step answers. -/
theorem everyStepAnswersNext : Obligations.EveryStepAnswersNext := by
  intro s
  cases hin : s.inputs with
  | nil => exact ⟨s, step_nil hin⟩
  | cons x rest => exact ⟨withInputs rest (takeStep x s), step_cons hin⟩

/-- Settles O7: the taken input plays no part in the command, so taking it before or after gives one state. -/
theorem stepRunsTheDecodedCommand : Obligations.StepRunsTheDecodedCommand := by
  intro s w rest i hin hd
  rw [step_cons hin, takeStep_of_some hd]
  exact (exec_withInputs i (advancePc s) rest (exec_eq_resultOf i _)).symm

end

section
/-!
Proofs of the statements about reset and hazards (70_reset_and_hazards.md): the reset input, a message left open, and shutdown.
-/

namespace Sys2Proof.Machine

/-! ## A message left open (R168, R271) -/

section OpenMessage

variable {s t : State} {x : Input}

/-- Only `MSG_COMMIT`, `MSG_ABORT` and reset close a message: a `MSG_BEGIN` that succeeds leaves one open as well. -/
theorem Took.msgOpen_of_open (h : Took s x t) (ho : s.msgOpen = true) (hreset : x ≠ .reset) (hcommit : ¬issues x .msgCommit)
    (habort : ¬issues x .msgAbort) : t.msgOpen = true := by
  by_contra hclosed
  obtain ⟨i, hi, he⟩ := h.issued_of_not_kept hreset fun hk => hclosed (hk.msgOpen.trans ho)
  cases he with
  | msgCommit => exact hcommit hi
  | msgAbort => exact habort hi
  | _ => simp [ho] at hclosed

theorem Took.arm_of_no_commit (h : Took s x t) (hreset : x ≠ .reset) (hcommit : ¬issues x .msgCommit) : t.arm = s.arm :=
  of_not_not fun hne => hcommit (h.writer_of_arm hreset hne).1

/-- A channel that the step's `CH_SET`, if it is one, does not name keeps its value. -/
theorem Took.channel_of_no_commit (h : Took s x t) (hreset : x ≠ .reset) (hcommit : ¬issues x .msgCommit) {i : Nat} (hi : i < 16)
    (hset : ∀ k a, issues x (.chSet k a) → k.toNat ≠ i) : t.cur[i] = s.cur[i] := by
  by_contra hne
  obtain ⟨j, hj, he⟩ := h.issued_of_not_kept hreset fun hk => hne (by rw [hk.cur])
  cases he with
  | chSet k a hk => exact hne (Vector.getElem_set_ne hk hi (hset k a hj))
  | msgCommit => exact hcommit hj
  | _ => simp at hne

end OpenMessage

/-- A `MSG_BEGIN` while a message is open fails with SequenceError (R168). -/
theorem respCode_msgBegin_of_open {s : State} (h : s.msgOpen = true) : (takeStep (issue .msgBegin) s).respCode = 0x06#8 := by
  have hfails : exec .msgBegin (advancePc s) = fail (.sequenceError .msgBegin) (advancePc s) := exec_msgBegin_of_open h
  rw [takeStep_issue (i := .msgBegin) rfl, resultOf_eq hfails]
  rfl

/-! ## Shutdown (R200, R205, R272) -/

theorem Effect.txEn_of_disabled {s t : State} {i : Instr} (h : Effect s i t) (hs : s.txEn = false)
    (hi : ∀ a, i = .txEnable a → a.getLsbD 0 = false) : t.txEn = false := by
  cases h with
  | txEnable a => exact hi a rfl
  | _ => simpa using hs

/-- No command but `TX_ENABLE 1` ends a drain: the others leave the engine and the wire as they were. -/
theorem Took.drains_of_command {s t : State} {w : CmdWord} (h : Took s (.command w) t) (hs : s.txEn = false)
    (hw : ∀ a, decode w = some (.txEnable a) → a.getLsbD 0 = false) : Drains 1 s t := by
  have hkept : t.txEn = false ∧ t.txState = s.txState ∧ t.wire = s.wire := by
    cases h with
    | illegal => exact ⟨hs, rfl, rfl⟩
    | command _ i hd t he => exact ⟨he.txEn_of_disabled hs fun a hi => hw a (hi ▸ hd), he.engine_eq.1, he.wire_eq⟩
  obtain ⟨hen, hstate, hwire⟩ := hkept
  exact ⟨hen, h.pc_of_command, by rw [framesDue, framesDue, hstate, hwire], fun hi => ⟨hstate.trans hi, hwire⟩⟩

/-- Whatever agent takes the step, disabled transmission drains on unless `TX_ENABLE 1` is issued. -/
theorem Took.exists_drains {s t : State} {x : Input} (h : Took s x t) (hs : s.txEn = false)
    (hx : ∀ a, issues x (.txEnable a) → a.getLsbD 0 = false) : ∃ k, Drains k s t := by
  cases x with
  | command w => exact ⟨1, h.drains_of_command hs fun a hd => hx a ⟨w, rfl, hd⟩⟩
  | tick | start | handoff | reset => exact ⟨0, h.drains hs nofun⟩

theorem drains_stateAt {sched : Nat → Input} {s : State} {n : Nat} (hs : (stateAt sched s n).txEn = false)
    (hkeep : ∀ m a, n ≤ m → issues (sched m) (.txEnable a) → a.getLsbD 0 = false) :
    ∀ m, n ≤ m → ∃ k, Drains k (stateAt sched s n) (stateAt sched s m) := by
  refine Nat.le_induction ⟨0, .refl hs⟩ fun m hm ⟨k, hk⟩ => ?_
  obtain ⟨j, hj⟩ := (takeStep_took (sched m) (stateAt sched s m)).exists_drains hk.disabled fun a => hkeep m a hm
  exact ⟨k + j, hk.trans hj⟩

/-- On a fair schedule TXE is Idle again and again: a handoff in progress is answered (R205). -/
theorem WeaklyFair.exists_idle {sched : Nat → Input} {s : State} (h : WeaklyFair sched s) (n : Nat) :
    ∃ m, n ≤ m ∧ (stateAt sched s m).txState = .idle := by
  by_contra hnever
  have hsending : ∀ m, n ≤ m → handoffEnabled (stateAt sched s m) = true := fun m hm =>
    handoffEnabled_iff.2 (txState_ne_idle_iff.1 fun hi => hnever ⟨m, hm, hi⟩)
  obtain ⟨-, hanswered⟩ := h
  obtain ⟨m, hm, r, hr⟩ := hanswered n hsending
  have hafter : (takeStep (sched m) (stateAt sched s m)).txState = .idle := hr ▸ txState_handoff r _
  exact hnever ⟨m + 1, Nat.le_succ_of_le hm, hafter⟩

end Sys2Proof.Machine

open Sys2Proof Sys2Proof.Machine

/-- Settles O43: each step keeps the message open and what it leaves unapplied, so the run does. -/
theorem openMessageStaysOpen : Obligations.OpenMessageStaysOpen := by
  intro s xs hopen hxs
  obtain ⟨hopen', harm⟩ : (runOf xs s).msgOpen = true ∧ (runOf xs s).arm = s.arm := by
    refine runOf_keeps (P := fun t => t.msgOpen = true ∧ t.arm = s.arm) (fun x hx t ⟨ho, ha⟩ => ?_) ⟨hopen, rfl⟩
    obtain ⟨hreset, hcommit, habort⟩ := hxs x hx
    have htook := takeStep_took x t
    exact ⟨htook.msgOpen_of_open ho hreset hcommit habort, (htook.arm_of_no_commit hreset hcommit).trans ha⟩
  refine ⟨hopen', harm, fun i hi hset => ?_, ?_⟩
  · refine runOf_keeps (P := fun t => t.cur[i] = s.cur[i]) (fun x hx t hc => ?_) rfl
    obtain ⟨hreset, hcommit, -⟩ := hxs x hx
    exact ((takeStep_took x t).channel_of_no_commit hreset hcommit hi (hset x hx)).trans hc
  · rw [runOf_append, runOf_cons, runOf_nil]
    exact respCode_msgBegin_of_open hopen'

/-- Settles O58: fairness brings an Idle state; up to it a drain adds at most the frame in progress, and from it on none. -/
theorem shutdownEndsTransmission : Obligations.ShutdownEndsTransmission := by
  intro sched s n hfair hdisabled hkeep
  obtain ⟨m, hm, hidle⟩ := hfair.exists_idle n
  obtain ⟨_, hdrains⟩ := drains_stateAt hdisabled hkeep m hm
  refine ⟨m, hm, (Nat.le_add_right _ _).trans (hdrains.frames.trans (framesDue_le _)), fun k hk => ?_⟩
  obtain ⟨_, hlater⟩ := drains_stateAt hdrains.disabled (fun j a hj => hkeep j a (hm.trans hj)) k hk
  exact hlater.idle hidle

/-- Settles O33: the taken input aside, the step is `applyReset`. -/
theorem resetInputKeepsOnlyTheOutputs : Obligations.ResetInputKeepsOnlyTheOutputs :=
  fun _ _ hin => step_cons hin

end
